-- ==== Sys2Proof/Word.lean ====
section
/-! DEFINITION. The word types of the engine. Every quantity is unsigned and bit 0 is the least
significant bit (00_scope.md R9). -/

namespace Sys2Proof

/-- `u32`: a table entry, `carry`, a seed, a DRAW result (R6: `W = 32`). -/
abbrev Word := BitVec 32

/-- `u12`: the index of a table entry, and `cursor` (R6: `IDXW = 12`). -/
abbrev Index := BitVec 12

/-- `u64`: the intermediate `t` of the multiply-accumulate unit (R6: `TW = 64`), and the 64 bits of a
binary64 value. -/
abbrev DWord := BitVec 64

/-- A command word `CW` of 33 bits, bit 32 most significant (R61). -/
abbrev CommandWord := BitVec 33

/-- A response word `RW` of 34 bits, bit 33 most significant (R65). -/
abbrev ResponseWord := BitVec 34

end Sys2Proof
end

