-- ==== Sys2Proof/Machine/Constants.lean ====
section
/-! DEFINITION. The hardwired constants (00_scope.md R6, 10_state.md R25) and the table's reset contents
(10_state.md R30). No command and no reset changes them, and they cannot be read back. -/

namespace Sys2Proof.Machine

/-- `LAG = 4096`, the number of table entries (R6, R23). -/
def lag : Nat := 4096

/-- `A = 18782`, the multiplier of the MAC (R6, R104). -/
def mulA : DWord := 18782#64

/-- `R = 0xfffffffe`, the complement base (R6, R110). -/
def complBase : Word := 0xfffffffe#32

/-- `PHI = 0x9e3779b9`, the mixing constant of seeding (R6, R81). -/
def phi : Word := 0x9e3779b9#32

/-- `C0 = 362436`, the carry after seeding (R6, R84). -/
def carry0 : Word := 362436#32

/-- `CUR0 = 4095`, the cursor after seeding (R6, R84). -/
def cursor0 : Index := 4095#12

/-- `SEED0 = 0`, the seed of the state that reset installs (R6, R30). -/
def seed0 : Word := 0#32

/-- `D = 2^32 - 1`, the divisor of DRAWD, not `2^32` (R6, R133). -/
def divisorD : Nat := 4294967295

/-- R30: the reset contents of the table, `table[i] = P[i mod 7]` with the seven words that rule writes
out. It is what an unlisted index of the table reads as. -/
def resetWord (i : Nat) : Word :=
  match i % 7 with
  | 0 => 0x00000000#32
  | 1 => 0x9e3779b9#32
  | 2 => 0x3c6ef372#32
  | 3 => 0x00000000#32
  | 4 => 0x3c6ef372#32
  | _ => 0xa2598acb#32

end Sys2Proof.Machine
end

