-- ==== Sys2Proof/Machine/Flags.lean ====
section
/-! DEFINITION. The one predicate of the engine (10_state.md R28): it lives inside step 5 of DRAW and no
flag survives a command. -/

namespace Sys2Proof.Machine

/-- `ovf = (x < carry)`, unsigned and strict, `carry` already holding `hi32(t)` (R28, R108). -/
def ovf (x carry : Word) : Bool := x.ult carry

end Sys2Proof.Machine
end

