-- ==== Sys2Proof/Machine/Datapath.lean ====
section
/-! DEFINITION. The datapath of DRAW: the multiply-accumulate unit and its adder tree (41_draw.md R104,
R105), the carry logic (R106 to R108, R112), the complement (R110), and the whole of it as the spec's
pure function `core` (R113), here `cmwcCore`. -/

namespace Sys2Proof.Machine

/-- `hi32(v) = v[63:32]` (00_scope.md R10). -/
def hi32 (v : DWord) : Word := v.extractLsb' 32 32

/-- `lo32(v) = v[31:0]` (00_scope.md R10). -/
def lo32 (v : DWord) : Word := v.extractLsb' 0 32

/-- Step 2: `t = 18782 * zext_64(q) + zext_64(c)`, which never wraps (R104, R109). -/
def mac (q c : Word) : DWord := mulA * q.zeroExtend 64 + c.zeroExtend 64

/-- The positions of the one-bits of `A` (R105): the adder tree sums `q` shifted left by each. -/
def mulAShifts : List Nat := [1, 2, 3, 4, 6, 8, 11, 14]

/-- R105: the MAC as an adder tree, the sum of eight shifted copies of the table word and the carry. Its
structure is free (decision D13); the meaning of DRAW uses `mac`. -/
def adderTree (q c : Word) : DWord :=
  mulAShifts.foldr (fun k acc => (q.zeroExtend 64 <<< k) + acc) (c.zeroExtend 64)

/-- Step 4: `x = (t + zext_64(carry))[31:0]`, `carry` being the new one (R107). -/
def fold (t : DWord) (carry : Word) : Word := lo32 (t + carry.zeroExtend 64)

/-- Step 5: if `x < carry` then both are incremented (R108). Answers (`x`, `carry`). -/
def correct (x carry : Word) : Word × Word :=
  if ovf x carry then (x + 1, carry + 1) else (x, carry)

/-- Step 6: `0xfffffffe -32 x` (R110). -/
def complement (x : Word) : Word := complBase - x

/-- Steps 2 to 6 as the spec orders them, on the word read and the carry in: the carry left and the word
written. -/
def drawWord (q c : Word) : Word × Word :=
  let t := mac q c
  let carry := hi32 t
  let xc := correct (fold t carry) carry
  (xc.2, complement xc.1)

/-- `x` after step 5 (the `x` of R113 and R116). -/
def drawX (q c : Word) : Word := (correct (fold (mac q c) (hi32 (mac q c))) (hi32 (mac q c))).1

/-- R113's `core(q, c)`, on mathematical integers, as the spec writes it: (`c'`, `out`). -/
def cmwcCore (q c : Word) : Word × Word :=
  let t : Nat := 18782 * q.toNat + c.toNat
  let hi : Nat := t / 2 ^ 32
  let lo : Nat := t % 2 ^ 32
  let o : Nat := if lo + hi ≥ 2 ^ 32 then 1 else 0
  let x : Nat := (lo + hi + o) % 2 ^ 32
  (BitVec.ofNat 32 (hi + o), BitVec.ofInt 32 ((0xfffffffe : Int) - x))

end Sys2Proof.Machine
end

