-- ==== Sys2Proof/Config.lean ====
section
/-! DEFINITION. The parameters the spec leaves open (00_scope.md R7) and the free values: what the
engine holds after a command was cut short (60_exceptions.md R142, 93_implementation_defined.md U2). -/

namespace Sys2Proof

/-- An IEEE 754 rounding direction (42_drawd.md R132). The spec's default is `nearestEven` (decision
D14); for each of the others the spec states the four properties of R132 too. -/
inductive Rounding where
  | nearestEven
  | nearestAway
  | towardZero
  | upward
  | downward
  deriving DecidableEq, Repr

/-- The one division of DRAWD at the requesters (R132): an IEEE 754 division in some direction, or the
platform's own, of which nothing is known (93_implementation_defined.md U8). -/
inductive Division where
  | ieee (mode : Rounding)
  | platform
  deriving DecidableEq, Repr

/-- R7's parameters of the step. They stand in `State` so that a statement about every state is a
statement about every value of them (notes/assumptions/3.md); no step changes them. -/
structure Config where
  /-- `N_REQ`, the number of requesters that may submit commands, at least 1 (R7, R152). -/
  nReq : Nat
  /-- `ALLOW_ABORT`, whether the environment can cut a command short (R7, R142). -/
  allowAbort : Bool
  /-- DRAWD's division at the requesters (R7, R132). -/
  division : Division
  deriving DecidableEq, Repr

/-- R7: `N_REQ` is an integer of at least 1. -/
abbrev Config.wf (c : Config) : Prop := 1 ≤ c.nReq

/-- FREE VALUE (notes/assumptions/5.md): the word at index `i` of the table after the `n`-th abort
("any values", R142). No body, so nothing can be proved of its value. -/
opaque Config.freeTableWord : Nat → Nat → Word

/-- FREE VALUE (notes/assumptions/5.md): `carry` after the `n`-th abort (R142). -/
opaque Config.freeCarry : Nat → Word

/-- FREE VALUE (notes/assumptions/5.md): `cursor` after the `n`-th abort (R142). -/
opaque Config.freeCursor : Nat → Index

/-- FREE VALUE (notes/assumptions/7.md): the 64 bits that a platform's own division of the word by 2^32 - 1
gives, a function of the word alone (R132, U8). -/
opaque Config.platformQuotient : Word → DWord

end Sys2Proof
end

