-- ==== Sys2Proof/Syntax.lean ====
section
/-! DEFINITION. The commands of the engine (one constructor per row of spec/opcode_table.json), what a
requester asks for (a command word, or the pseudo-operation DRAWD), and the lines of a command script. -/

namespace Sys2Proof

/-- The two commands (30_encoding.md R62). DRAW has no operand: its `arg` field is ignored (R64). -/
inductive Instr where
  /-- `DRAW`: advance the generator by one step and answer the new word (41_draw.md R100). -/
  | draw
  /-- `SEED seed`: replace the whole generator state (40_seed.md R80). -/
  | seed (seed : Word)
  deriving DecidableEq, Repr

/-- What a requester puts on the command port. `drawd` is the pseudo-operation: the engine receives the
command word of a DRAW, and the requester divides the word it receives (R67, R130). -/
inductive Request where
  | command (cw : CommandWord)
  | drawd
  deriving DecidableEq, Repr

/-- The operation of one script line, its literal as written (00_scope.md R12, R66). -/
inductive ScriptOp where
  | draw
  | seed (n : Nat)
  | drawd
  deriving DecidableEq, Repr

/-- One line of a command script (R12): the reset event, or an operation with the number of the
requester that issues it (`r<k>:`, by default `r0`). -/
inductive ScriptLine where
  | reset
  | command (requester : Nat) (op : ScriptOp)
  deriving DecidableEq, Repr

end Sys2Proof
end

