-- ==== Sys2Proof/WellFormed.lean ====
section
/-! DEFINITION. Which terms of the syntax stand for something the port can carry. Every command is legal
(30_encoding.md R63, R64), so the checks with content are those of script lines (R66). -/

namespace Sys2Proof

/-- Every command is well formed: DRAW has no operand, and "any 32-bit seed value is valid" (R63, R64).
A seed wider than 32 bits cannot be written, by its type. -/
def Instr.wf : Instr → Bool
  | .draw => true
  | .seed _ => true

/-- R66: the literal of `SEED n` lies in [0, 4294967295]; one outside it is an assembly error. -/
def ScriptOp.wf : ScriptOp → Bool
  | .draw => true
  | .seed n => decide (n ≤ 4294967295)
  | .drawd => true

/-- R66: the requester number `k` of `r<k>:` lies in [0, `N_REQ` - 1]. -/
def ScriptLine.wf (nReq : Nat) : ScriptLine → Bool
  | .reset => true
  | .command r op => decide (r < nReq) && op.wf

end Sys2Proof
end

