-- ==== Sys2Proof/Decode.lean ====
section
/-! DEFINITION. The decoder, total on all 33-bit command words (30_encoding.md R68), and after it the
encoder and the assembler, written from the same field table (R61, R62, R66). -/

namespace Sys2Proof

/-- Field `op` = `CW[32]` (R61). -/
def opField (cw : CommandWord) : BitVec 1 := cw.extractLsb' 32 1

/-- Field `arg` = `CW[31:0]` (R61); for SEED it is the seed, taken as it is (R63). -/
def argField (cw : CommandWord) : Word := cw.extractLsb' 0 32

/-- R68: `if CW[32] = 0 then DRAW else SEED(seed = CW[31:0])`. There is no illegal word, and the `arg`
bits of a DRAW are not tested (R64). -/
def decode (cw : CommandWord) : Instr :=
  if opField cw = 0 then .draw else .seed (argField cw)

/-- Why a number is no command word. -/
inductive DecodeError where
  /-- It has a bit above bit 32: a command is always 33 bits long (R61, R64). -/
  | widerThanCommandWord
  deriving DecidableEq, Repr

/-- The decoder on any number: what does not fit 33 bits is rejected by name, the rest is decoded. -/
def decodeNat (w : Nat) : Except DecodeError Instr :=
  if w < 2 ^ 33 then .ok (decode (BitVec.ofNat 33 w)) else .error .widerThanCommandWord

/-- The host's fixed name: the instruction the decoder reads from the lowest `nbits` bits of `w`. -/
def decodeTableWord (nbits w : Nat) : Option Instr :=
  match decodeNat (w % 2 ^ nbits) with
  | .ok i => some i
  | .error _ => none

/-- The canonical command word of a command: `DRAW` is `0x000000000`, `SEED n` is `0x100000000 + n`
(R62, R66). -/
def encode : Instr → CommandWord
  | .draw => 0x000000000#33
  | .seed s => 0x100000000#33 + s.setWidth 33

/-- The command word a requester sends: DRAWD has no encoding of its own and sends `CW = 0x000000000`
(R67). -/
def Request.word : Request → CommandWord
  | .command cw => cw
  | .drawd => encode .draw

/-- Why a script line does not assemble. -/
inductive AssemblyError where
  /-- The literal of `SEED n` lies outside [0, 4294967295] (R66). -/
  | literalOutOfRange
  /-- The requester number `k` of `r<k>:` lies outside [0, `N_REQ` - 1], the range R66 gives it. R66 calls only a
  literal out of range an assembly error; that such a requester number is one too is the model's DESIGN CHOICE
  (log entry 21, safe). -/
  | noSuchRequester
  deriving DecidableEq, Repr

/-- R66, R67: the request a script operation stands for. -/
def assemble (op : ScriptOp) : Except AssemblyError Request :=
  match op with
  | .draw => .ok (.command (encode .draw))
  | .seed n =>
    if op.wf then .ok (.command (encode (.seed (BitVec.ofNat 32 n)))) else .error .literalOutOfRange
  | .drawd => .ok .drawd

/-- R66: the requester and the request that a script line stands for; `RESET` "assembles to nothing". DESIGN CHOICE
(log entry 21, safe): a requester number outside [0, `N_REQ` - 1] is an assembly error, reported before the
literal's. -/
def assembleLine (nReq : Nat) (line : ScriptLine) : Except AssemblyError (Option (Nat × Request)) :=
  match line with
  | .reset => .ok none
  | .command r op =>
    if r < nReq then
      match assemble op with
      | .ok rq => .ok (some (r, rq))
      | .error e => .error e
    else .error .noSuchRequester

/-- R12, R178: the requests that requester `r` makes by the lines of a script, in order. A line that does not
assemble makes none (log entry 21). -/
def requestsOf (nReq r : Nat) (lines : List ScriptLine) : List Request :=
  lines.filterMap fun line =>
    match assembleLine nReq line with
    | .ok (some (k, rq)) => if k = r then some rq else none
    | _ => none

end Sys2Proof
end

