-- ==== Sys2Proof/Machine/State.lean ====
section
/-! DEFINITION. Everything the spec gives the machine: the generator state and the poison flag
(10_state.md R20), the sequencer phase with the transient registers that are live in it (R26, R27), the
command port with every requester's outstanding command and the responses (R33, R65, R178), and the
moves still to come from the requesters, the arbiter and the environment (00_scope.md R16). -/

namespace Sys2Proof.Machine

/-- The lag table (R23, R40): (index, word) pairs, indices strictly rising, no word listed that equals the
reset word of its index; an unlisted index reads as its reset word. The unit is the 32-bit word, since
the spec gives the table no byte address and no byte order (R40, R42; notes/assumptions/1.md). -/
abbrev Memory := List (Nat × Word)

/-- The source's GeneratorState (R14, R20): table, carry, cursor. -/
structure Gen where
  table : Memory
  carry : Word
  cursor : Index
  deriving DecidableEq, Repr

/-- The abstract response of a command (30_encoding.md R65). -/
inductive Response where
  /-- `Ok`, no value (SEED). -/
  | ok
  /-- `Ok(v)` (DRAW). -/
  | okWord (v : Word)
  /-- `Fatal(LockFailure)`, cause code 1, no value (60_exceptions.md R140). -/
  | fatal
  deriving DecidableEq, Repr

/-- What a requester makes of a response it has consumed: the response itself, or for DRAWD the quotient
(42_drawd.md R130). -/
inductive Result where
  | ok
  | word (v : Word)
  /-- The 64 bits of the binary64 value that DRAWD returns. -/
  | double (bits : DWord)
  | fatal
  deriving DecidableEq, Repr

/-- A response that a requester has consumed, with the request it answers (70_reset_and_hazards.md R178). -/
structure Received where
  requester : Nat
  request : Request
  response : Response
  deriving DecidableEq, Repr

/-- Where a requester stands. It has at most one command outstanding (R16, R33), by this type. -/
inductive ReqStatus where
  /-- Nothing outstanding. -/
  | idle
  /-- Submitted, not yet accepted. -/
  | pending (rq : Request)
  /-- Accepted, in execution. -/
  | executing (rq : Request)
  /-- Answered, the response not yet consumed. -/
  | answered (rq : Request) (resp : Response)
  /-- Its command was aborted: it "receives no response, ever" (R142). -/
  | lost (rq : Request)
  deriving DecidableEq, Repr

/-- The sequencer's phase (R27) with the transient registers (R26) that are live in it. A transient
register exists only in the phases between its write and its last read, since after that it "holds no
defined value" (notes/assumptions/6.md). `hi` and `lo` are the two halves of `t`. -/
inductive Phase where
  | idle
  | dead
  | sAdv
  | sRead
  | sMac (q : Word)
  | sCarry (t : DWord)
  | sFold (t : DWord)
  | sCorr (x : Word)
  | sWrite (x : Word)
  | sResp
  | iLatch (arg : Word)
  | iW0 (seedr : Word)
  | iW1 (seedr : Word)
  | iW2 (seedr : Word)
  | iFill (seedr : Word) (fillidx : BitVec 13)
  | iFin
  | iResp
  deriving DecidableEq, Repr

/-- One move of an agent (R16, R177). `accept` is the engine's move as the spec has it: one pending
command, executed whole (20_memory.md R47). `start` and `tick` are the same command phase by phase
(R27, R88, R111), so that `abort` and `reset` can fall inside it. -/
inductive Move where
  /-- Requester `r` submits a request (R177 a). -/
  | submit (r : Nat) (rq : Request)
  /-- The engine accepts `r`'s pending command and executes it whole (R47, R152). -/
  | accept (r : Nat)
  /-- The engine accepts `r`'s pending command and enters its first phase (R27). -/
  | start (r : Nat)
  /-- The sequencer performs one phase. -/
  | tick
  /-- Requester `r` consumes its response (R177 b). -/
  | consume (r : Nat)
  /-- The environment asserts reset (70_reset_and_hazards.md R170). -/
  | reset
  /-- The environment cuts the command in execution short (60_exceptions.md R142). -/
  | abort
  deriving DecidableEq, Repr

structure State where
  /-- `table`, 4096 words of 32 bits (R23). -/
  table : Memory
  /-- `carry`, 32 bits (R21). -/
  carry : Word
  /-- `cursor`, 12 bits (R22). -/
  cursor : Index
  /-- `poison`, 1 bit, sticky (R24). -/
  poison : Bool
  /-- `phase` and the live transient registers (R26, R27). -/
  phase : Phase
  /-- The requester whose command is in execution. -/
  owner : Option Nat
  /-- Every requester that is not idle, by number, in rising order (R33). -/
  requesters : List (Nat × ReqStatus)
  /-- The responses the requesters have received, in order, since the run began with reset (R178). -/
  received : List Received
  /-- The moves of the agents that are known so far and not yet made, first one first: the choices that are
  not the engine's (R16, R17). -/
  inputs : List Move
  /-- R7's parameters. -/
  cfg : Config
  /-- The model's own counter for free values, one per abort (notes/assumptions/5.md). -/
  freeIdx : Nat
  deriving DecidableEq, Repr

/-- The engine never stops with a fault: its one exception is a FATAL response, after which the machine
goes on (R143), and "no other exception exists" (R145). Hence no constructor. -/
inductive Fault : Type
  deriving DecidableEq, Repr

/-- Why a step gives no next state. Every one of these but `notModelled` is raised by
`Sys2Proof.Machine.step` for a move that the agents cannot make (R16, R177), and is SAFE: the model says
nothing of a situation that the spec says does not arise. No command ends in one. -/
inductive Refusal where
  /-- For an arm of `exec` without a meaning; none is left. Safe. -/
  | notModelled (mnemonic : String)
  /-- `submit` by a requester outside [0, `N_REQ` - 1], or by one with a command outstanding (R16). -/
  | cannotSubmit
  /-- `accept` or `start` of a requester that has no command pending (R152). -/
  | nothingPending
  /-- `accept` or `start` while a command is in execution (R47). -/
  | notAtRest
  /-- `tick` or `abort` while no command is in execution (R27, R142). -/
  | nothingExecuting
  /-- `abort` although `ALLOW_ABORT` is false (R142). -/
  | abortExcluded
  /-- `consume` by a requester that has no response (R177). -/
  | nothingToConsume
  deriving DecidableEq, Repr

/-- The parameters `State.reset` takes: `ALLOW_ABORT = false` and round to nearest even are the spec's
defaults (R7, D14); `N_REQ = 1` is a DESIGN CHOICE (notes/assumptions/3.md). -/
def resetConfig : Config := { nReq := 1, allowAbort := false, division := .ieee .nearestEven }

/-- The machine right after reset (R30, R170): the seed-0 generator state (no entry listed: the table
holds its reset words), `carry = 362436`, `cursor = 4095`, `poison = 0`, `phase = IDLE`, nothing
outstanding at any requester, nothing received. -/
def State.reset : State :=
  { table := [], carry := carry0, cursor := cursor0, poison := false, phase := .idle, owner := none,
    requesters := [], received := [], inputs := [], cfg := resetConfig, freeIdx := 0 }

end Sys2Proof.Machine
end

