-- ==== Sys2Proof/Machine/Operands.lean ====
section
/-! DEFINITION. Where a command's operands come from and its result goes: the lag-table index controller
(41_draw.md R103, 40_seed.md R86) and the bits of the response word (30_encoding.md R65). -/

namespace Sys2Proof.Machine

/-- Step 1 of DRAW: "`cursor = (cursor + 1) mod 4096`" (R103). The carry out of bit 11 is discarded, so
4095 is followed by 0. -/
def nextCursor (cursor : Index) : Index := cursor + 1

/-- A fill step with `fillidx = i` presents read index `i - 3` (R86). -/
def fillRead3 (fillidx : BitVec 13) : Index := BitVec.ofNat 12 (fillidx.toNat - 3)

/-- A fill step with `fillidx = i` presents read index `i - 2` (R86). -/
def fillRead2 (fillidx : BitVec 13) : Index := BitVec.ofNat 12 (fillidx.toNat - 2)

/-- A fill step with `fillidx = i` presents write index `i` (R86). -/
def fillWrite (fillidx : BitVec 13) : Index := BitVec.ofNat 12 fillidx.toNat

/-- The last index that a fill step writes (R83, R86): the fill repeats while `fillidx <= 4095`. -/
def lastFillIdx : BitVec 13 := 4095#13

/-- R65: the response word, `fatal` = bit 33, `valid` = bit 32, `data` = bits 31:0, the data bits 0
wherever `valid = 0`. -/
def Response.word : Response → ResponseWord
  | .ok => 0x000000000#34
  | .okWord v => 0x100000000#34 + v.setWidth 34
  | .fatal => 0x200000000#34

/-- R65 read backwards: `data` is not looked at when `valid = 0`, and `fatal = 1, valid = 1`, which
"never occurs", is no response. -/
def Response.ofWord (rw : ResponseWord) : Option Response :=
  let isFatal := rw.extractLsb' 33 1
  let valid := rw.extractLsb' 32 1
  if isFatal = 0 then
    if valid = 0 then some .ok else some (.okWord (rw.extractLsb' 0 32))
  else if valid = 0 then some .fatal else none

end Sys2Proof.Machine
end

