-- ==== Sys2Proof/Machine/Ops.lean ====
section
/-! DEFINITION. The named operations over the state: reading and writing the table, a requester's status,
answering a command, taking the one exception, and the two events of the environment. -/

namespace Sys2Proof.Machine

/-! ### Sparse lists: keys with values, an unlisted key holding a default -/

/-- The value at key `k`; an unlisted key holds `d k`. -/
def lookup {α : Type} (d : Nat → α) : List (Nat × α) → Nat → α
  | [], k => d k
  | (k', v) :: m, k => if k = k' then v else lookup d m k

/-- `m` with `(k, v)` in front, unless `v` is what `k` holds unlisted. -/
def keep {α : Type} [DecidableEq α] (d : Nat → α) (k : Nat) (v : α) (m : List (Nat × α)) :
    List (Nat × α) :=
  if v = d k then m else (k, v) :: m

/-- `m` with the value at `k` replaced by `v`, in canonical form if `m` is. -/
def store {α : Type} [DecidableEq α] (d : Nat → α) : List (Nat × α) → Nat → α → List (Nat × α)
  | [], k, v => keep d k v []
  | (k', v') :: m, k, v =>
    if k < k' then keep d k v ((k', v') :: m)
    else if k = k' then keep d k v m
    else (k', v') :: store d m k v

/-- The canonical form: keys strictly rising and below `bound`, no listed value a default. -/
abbrev Canonical {α : Type} [DecidableEq α] (d : Nat → α) (bound : Nat) (m : List (Nat × α)) : Prop :=
  m.Pairwise (fun a b => a.1 < b.1) ∧ ∀ c ∈ m, c.1 < bound ∧ c.2 ≠ d c.1

/-! ### The lag table -/

/-- The table's canonical form; every index lies in [0, 4095] (20_memory.md R40). -/
abbrev Memory.wf (m : Memory) : Prop := Canonical resetWord lag m

/-- `MemRead(i, 32)`: the whole word at index `i` (00_scope.md R11, 20_memory.md R43). -/
def Memory.read (m : Memory) (i : Index) : Word := lookup resetWord m i.toNat

/-- `MemWrite(i, 32, v)`: the whole word at index `i` becomes `v`, no other entry changes (R11, R43). -/
def Memory.write (m : Memory) (i : Index) (v : Word) : Memory := store resetWord m i.toNat v

/-! ### The generator state as a whole -/

/-- The GeneratorState held in a state (00_scope.md R14). -/
def State.gen (s : State) : Gen := { table := s.table, carry := s.carry, cursor := s.cursor }

/-- `s` with its GeneratorState replaced. -/
def State.withGen (s : State) (g : Gen) : State :=
  { s with table := g.table, carry := g.carry, cursor := g.cursor }

/-- `s` with `moves` as the moves still to come. -/
def State.withInputs (s : State) (moves : List Move) : State := { s with inputs := moves }

/-! ### Requesters and responses -/

/-- An unlisted requester has nothing outstanding. -/
def idleStatus (_ : Nat) : ReqStatus := .idle

/-- Where requester `r` stands (10_state.md R33). -/
def State.status (s : State) (r : Nat) : ReqStatus := lookup idleStatus s.requesters r

/-- `s` with requester `r`'s status replaced. -/
def State.setStatus (s : State) (r : Nat) (st : ReqStatus) : State :=
  { s with requesters := store idleStatus s.requesters r st }

/-- The status of a requester whose command is answered: only one in execution is (R65). -/
def ReqStatus.answer (st : ReqStatus) (resp : Response) : ReqStatus :=
  match st with
  | .executing rq => .answered rq resp
  | st => st

/-- The response is delivered "to the requester that submitted the command and to no other" (R65), and
nothing is in execution any more. -/
def State.respond (s : State) (resp : Response) : State :=
  match s.owner with
  | none => s
  | some r => { s.setStatus r ((s.status r).answer resp) with owner := none }

/-- The last phase of a command that was executed: the response, and "`phase <- IDLE`" (R88, R111). -/
def State.finishWith (s : State) (resp : Response) : State := { s.respond resp with phase := .idle }

/-- TAKING THE EXCEPTION `Fatal(LockFailure)` (60_exceptions.md R143): the response is FATAL and carries no
word; `table`, `carry`, `cursor`, `poison` and `phase` keep their contents; nothing is recorded (R140),
there is no handler and no return (R144). -/
def State.takeFatal (s : State) : State := s.respond .fatal

/-! ### Events of the environment -/

/-- THE ONLY WAY OUT OF THE EXCEPTION (R144): the reset event (70_reset_and_hazards.md R170) installs the
reset values, abandons the command in execution and discards the pending ones; the requesters begin
again with nothing outstanding. The parameters, the moves still to come and the model's counter stay. -/
def State.resetEvent (s : State) : State :=
  { State.reset with inputs := s.inputs, cfg := s.cfg, freeIdx := s.freeIdx }

/-- The table after the `n`-th abort: a free word at each of the `k` indices from `i` on (R142, U2). -/
def freeTableFrom (n : Nat) : Nat → Nat → Memory
  | 0, _ => []
  | k + 1, i => keep resetWord i (Config.freeTableWord n i) (freeTableFrom n k (i + 1))

/-- A requester whose command is cut short gets no response, ever (R142). -/
def ReqStatus.lose (st : ReqStatus) : ReqStatus :=
  match st with
  | .executing rq => .lost rq
  | st => st

/-- The command in execution ends without a response. -/
def State.dropOwner (s : State) : State :=
  match s.owner with
  | none => s
  | some r => { s.setStatus r (s.status r).lose with owner := none }

/-- The abort event (R142): the command ends without a response, `poison <- 1`, `phase <- DEAD`, and
`table`, `carry`, `cursor` hold free values. -/
def State.abortEvent (s : State) : State :=
  { s.dropOwner with
    table := freeTableFrom s.freeIdx lag 0
    carry := Config.freeCarry s.freeIdx
    cursor := Config.freeCursor s.freeIdx
    poison := true
    phase := .dead
    freeIdx := s.freeIdx + 1 }

end Sys2Proof.Machine
end

