-- ==== Sys2Proof/Machine/Draw.lean ====
section
/-! DEFINITION. DRAW (41_draw.md R100). -/

namespace Sys2Proof.Machine

/-- The source's `step` on a GeneratorState (R14, R100 steps 1 to 7): the new state and the word. The one
table entry used is that at the incremented cursor, read first and then written (R102). -/
def Gen.draw (g : Gen) : Gen × Word :=
  let cursor := nextCursor g.cursor
  let r := drawWord (g.table.read cursor) g.carry
  ({ table := g.table.write cursor r.2, carry := r.1, cursor := cursor }, r.2)

/-- DRAW, whole: refused when `poison = 1` (R143), otherwise one step of the generator, answered with the
new `table[cursor]` (R100, R101). -/
def execDraw (s : State) : Host.Outcome State Fault Refusal :=
  if s.poison then .next s.takeFatal
  else .next ((s.withGen s.gen.draw.1).finishWith (.okWord s.gen.draw.2))

end Sys2Proof.Machine
end

