-- ==== Sys2Proof/Machine/Seed.lean ====
section
/-! DEFINITION. SEED (40_seed.md R80): the source's `initialize`, `reseed` and `set_seed`. -/

namespace Sys2Proof.Machine

/-- R83, one fill step: `table[i] = table[i-3] XOR table[i-2] XOR PHI XOR seed`. -/
def mix (back3 back2 seed : Word) : Word := back3 ^^^ back2 ^^^ phi ^^^ seed

/-- The `n` entries from index `i` on, of which the first three are `a`, `b`, `c`: each later one is the
fill step of the entries three and two before it (R83). The last three words are carried along instead
of being read back, which R43 says is not observable. -/
def seedFrom (seed : Word) : Nat → Nat → Word → Word → Word → Memory
  | 0, _, _, _, _ => []
  | n + 1, i, a, b, c => keep resetWord i a (seedFrom seed n (i + 1) b c (mix a b seed))

/-- R80, R82: `table[0] = seed`, `table[1] = seed +32 PHI`, `table[2] = (seed +32 PHI) +32 PHI`, and the
fill up to index 4095. -/
def seedTable (seed : Word) : Memory := seedFrom seed lag 0 seed (seed + phi) (seed + phi + phi)

/-- The source's `initialize(seed)` (R14, R80, R84): it depends on `seed` alone (R89). -/
def Gen.seeded (seed : Word) : Gen := { table := seedTable seed, carry := carry0, cursor := cursor0 }

/-- SEED, whole: refused when `poison = 1` (R143), otherwise the generator state is replaced by
`initialize(seed)` and the answer is `Ok` (R80, R85). -/
def execSeed (seed : Word) (s : State) : Host.Outcome State Fault Refusal :=
  if s.poison then .next s.takeFatal
  else .next ((s.withGen (Gen.seeded seed)).finishWith .ok)

end Sys2Proof.Machine
end

