-- ==== Sys2Proof/Machine/Dispatch.lean ====
section
/-! DEFINITION. One arm per command: the whole effect of a command that has been accepted (20_memory.md
R47). -/

namespace Sys2Proof.Machine

def exec (i : Instr) (s : State) : Host.Outcome State Fault Refusal :=
  match i with
  | .draw => Sys2Proof.Machine.execDraw s
  | .seed seed => Sys2Proof.Machine.execSeed seed s

end Sys2Proof.Machine
end

