-- ==== Sys2Proof/Machine/Drawd.lean ====
section
/-! DEFINITION. The requester's side of DRAWD (42_drawd.md R130 to R133): the conversion of the word to
binary64 and the one division by 2^32 - 1, and what a requester makes of a response. -/

namespace Sys2Proof.Machine

/-- The least `k ≥ k0`, searched for `fuel` steps, with `n * 2^k ≥ 2^52 * d`: then the quotient `n * 2^k / d`
has its leading bit at position 52. -/
def scaleFrom (n d : Nat) : Nat → Nat → Nat
  | 0, k => k
  | fuel + 1, k => if 2 ^ 52 * d ≤ n * 2 ^ k then k else scaleFrom n d fuel (k + 1)

/-- Whether a positive quotient with quotient `q`, remainder `r` and divisor `d` is rounded up. -/
def roundsUp (mode : Rounding) (q r d : Nat) : Bool :=
  match mode with
  | .nearestEven => decide (d < 2 * r) || (decide (2 * r = d) && q % 2 == 1)
  | .nearestAway => decide (d ≤ 2 * r)
  | .towardZero => false
  | .upward => decide (0 < r)
  | .downward => false

/-- The 64 bits of the binary64 value of `n / d`, rounded once, for `n / d` zero or in [2^-32, 2^53): sign 0,
biased exponent in bits 62:52, fraction in bits 51:0 (R131, R132). The significand is added to the
exponent field less its hidden bit, so that rounding up to the next power of two carries into the
exponent. -/
def binary64Quotient (mode : Rounding) (n d : Nat) : DWord :=
  if n = 0 then 0#64
  else
    let k := scaleFrom n d 85 0
    let q := n * 2 ^ k / d
    let r := n * 2 ^ k % d
    let m := if roundsUp mode q r d then q + 1 else q
    BitVec.ofNat 64 ((1023 + 52 - k) * 2 ^ 52 + (m - 2 ^ 52))

/-- `f <- the 64-bit floating value equal to v` (R130); exact (R131), whatever the rounding. -/
def wordToDouble (v : Word) : DWord := binary64Quotient .nearestEven v.toNat 1

/-- `d <- f / 4294967295.0`, one floating division (R130, R132), of the number that `f` is exactly equal to
(R131). -/
def divideByD (division : Division) (v : Word) : DWord :=
  match division with
  | .ieee mode => binary64Quotient mode v.toNat divisorD
  | .platform => Config.platformQuotient v

/-- The number a finite binary64 bit pattern stands for: `(-1)^sign * significand * 2^exponent` (R131: a
64-bit floating value is IEEE 754 binary64). -/
def binary64Value (b : DWord) : ℚ :=
  let sign : ℚ := if b.getMsbD 0 then -1 else 1
  let e := (b.extractLsb' 52 11).toNat
  let f := (b.extractLsb' 0 52).toNat
  if e = 0 then sign * (f : ℚ) * (2 : ℚ) ^ (-1074 : Int)
  else sign * ((2 ^ 52 + f : Nat) : ℚ) * (2 : ℚ) ^ ((e : Int) - 1075)

/-- Whether a bit pattern is a finite binary64 value (not infinite, not NaN). -/
def binary64Finite (b : DWord) : Bool := (b.extractLsb' 52 11).toNat != 2047

/-- What a requester that made request `rq` makes of the response (R130): for DRAWD the quotient of the
word, or the same fatal error; for a command the response as it is. -/
def resultOf (division : Division) (rq : Request) (resp : Response) : Result :=
  match resp with
  | .ok => .ok
  | .fatal => .fatal
  | .okWord v =>
    match rq with
    | .command _ => .word v
    | .drawd => .double (divideByD division v)

end Sys2Proof.Machine
end

