-- ==== Sys2Proof/Machine/Sequencer.lean ====
section
/-! DEFINITION. The state sequencer (10_state.md R27): a command phase by phase, as 41_draw.md R111 and
40_seed.md R88 list them. -/

namespace Sys2Proof.Machine

/-- At rest, `phase` is `IDLE` or `DEAD`; only at rest may the engine accept a command (R27). -/
def Phase.atRest : Phase → Bool
  | .idle => true
  | .dead => true
  | _ => false

/-- The first phase of a command (R27): the opcode selects `S_ADV` or `I_LATCH`. -/
def firstPhase : Instr → Phase
  | .draw => .sAdv
  | .seed s => .iLatch s

/-- One phase (R88, R111). At rest there is none, and the state stays. -/
def State.tick (s : State) : State :=
  match s.phase with
  | .idle => s
  | .dead => s
  | .sAdv => { s with cursor := nextCursor s.cursor, phase := .sRead }
  | .sRead => { s with phase := .sMac (s.table.read s.cursor) }
  | .sMac q => { s with phase := .sCarry (mac q s.carry) }
  | .sCarry t => { s with carry := hi32 t, phase := .sFold t }
  | .sFold t => { s with phase := .sCorr (fold t s.carry) }
  | .sCorr x => { s with carry := (correct x s.carry).2, phase := .sWrite (correct x s.carry).1 }
  | .sWrite x => { s with table := s.table.write s.cursor (complement x), phase := .sResp }
  | .sResp => s.finishWith (.okWord (s.table.read s.cursor))
  | .iLatch arg => { s with phase := .iW0 arg }
  | .iW0 seedr => { s with table := s.table.write 0 seedr, phase := .iW1 seedr }
  | .iW1 seedr => { s with table := s.table.write 1 (seedr + phi), phase := .iW2 seedr }
  | .iW2 seedr => { s with table := s.table.write 2 (seedr + 0x3c6ef372#32), phase := .iFill seedr 3 }
  | .iFill seedr i =>
    if i.ule lastFillIdx then
      { s with
        table := s.table.write (fillWrite i)
          (mix (s.table.read (fillRead3 i)) (s.table.read (fillRead2 i)) seedr)
        phase := .iFill seedr (i + 1) }
    else { s with phase := .iFin }
  | .iFin => { s with carry := carry0, cursor := cursor0, phase := .iResp }
  | .iResp => s.finishWith .ok

/-- How many phases a command still has to go through. -/
def Phase.left : Phase → Nat
  | .idle => 0
  | .dead => 0
  | .sAdv => 8
  | .sRead => 7
  | .sMac _ => 6
  | .sCarry _ => 5
  | .sFold _ => 4
  | .sCorr _ => 3
  | .sWrite _ => 2
  | .sResp => 1
  | .iLatch _ => 4100
  | .iW0 _ => 4099
  | .iW1 _ => 4098
  | .iW2 _ => 4097
  | .iFill _ i => 4096 - i.toNat + 3
  | .iFin => 2
  | .iResp => 1

/-- `n` phases. -/
def State.ticks : Nat → State → State
  | 0, s => s
  | n + 1, s => State.ticks n s.tick

/-- The command in execution brought to its end, phase by phase. -/
def State.complete (s : State) : State := State.ticks s.phase.left s

end Sys2Proof.Machine
end

