-- ==== Sys2Proof/Machine/Port.lean ====
section
/-! DEFINITION. The command port (10_state.md R33, 60_exceptions.md R152, 70_reset_and_hazards.md R177):
submitting, granting, starting phase by phase, consuming, and the moves a script line stands for. -/

namespace Sys2Proof.Machine

/-- Requester `r` submits a request: it is one of the `N_REQ` and has nothing outstanding (R16, R177 a). -/
def State.submit (s : State) (r : Nat) (rq : Request) : Host.Outcome State Fault Refusal :=
  if r < s.cfg.nReq ∧ s.status r = .idle then .next (s.setStatus r (.pending rq))
  else .refused .cannotSubmit

/-- The request of `r` that the engine may accept now: `r` has one pending, and the engine is at rest,
which on a poisoned engine it is too (R27, R47, R152). Any pending command may be the one. -/
def State.grantable (s : State) (r : Nat) : Except Refusal Request :=
  match s.status r with
  | .pending rq => if s.phase.atRest then .ok rq else .error .notAtRest
  | _ => .error .nothingPending

/-- `r`'s request is in execution. -/
def State.grant (s : State) (r : Nat) (rq : Request) : State :=
  { s.setStatus r (.executing rq) with owner := some r }

/-- `r`'s request enters its first phase; on a poisoned engine it "is answered FATAL at once" and enters
none (R27, R143). -/
def State.startPhases (s : State) (r : Nat) (rq : Request) : State :=
  if s.poison then (s.grant r rq).takeFatal
  else { s.grant r rq with phase := firstPhase (decode rq.word) }

/-- One phase of the command in execution. -/
def State.tickMove (s : State) : Host.Outcome State Fault Refusal :=
  if s.phase.atRest then .refused .nothingExecuting else .next s.tick

/-- Requester `r` consumes its response, which is recorded as received (70_reset_and_hazards.md R178), and has
nothing outstanding any more (R177 b). -/
def State.consume (s : State) (r : Nat) : Host.Outcome State Fault Refusal :=
  match s.status r with
  | .answered rq resp =>
    .next { s.setStatus r .idle with
            received := s.received ++ [{ requester := r, request := rq, response := resp }] }
  | _ => .refused .nothingToConsume

/-- R178: the responses requester `r` has received, in order. -/
def State.receivedBy (s : State) (r : Nat) : List Response :=
  (s.received.filter (·.requester == r)).map (·.response)

/-- The requests of `r` that those responses answer, in the same order. -/
def State.requestsServed (s : State) (r : Nat) : List Request :=
  (s.received.filter (·.requester == r)).map (·.request)

/-- What requester `r` makes of those responses: for a DRAWD the quotient (42_drawd.md R130). -/
def State.resultsBy (s : State) (r : Nat) : List Result :=
  (s.received.filter (·.requester == r)).map fun p => resultOf s.cfg.division p.request p.response

/-- The abort event, only with `ALLOW_ABORT` and only while a command is in execution (R142). -/
def State.abortMove (s : State) : Host.Outcome State Fault Refusal :=
  if s.phase.atRest then .refused .nothingExecuting
  else if s.cfg.allowAbort then .next s.abortEvent
  else .refused .abortExcluded

/-- `s` at rest: a command in execution, if there is one, is dropped. -/
def State.atRestNow (s : State) : State :=
  if s.phase.atRest then s else { s.dropOwner with phase := if s.poison then .dead else .idle }

/-- `s` with command word `cw` pending at requester 0, which the engine accepts next. -/
def State.withNextCommand (s : State) (cw : CommandWord) : State :=
  (s.atRestNow.setStatus 0 (.pending (.command cw))).withInputs (.accept 0 :: s.inputs)

/-- The moves of one script line when its requester waits for the response and no other agent moves in between
(R12, R66). -/
def scriptMoves (nReq : Nat) (line : ScriptLine) : Except AssemblyError (List Move) :=
  match assembleLine nReq line with
  | .ok none => .ok [.reset]
  | .ok (some (r, rq)) => .ok [.submit r rq, .accept r, .consume r]
  | .error e => .error e

/-- One schedule of a script: its lines one after another. The other schedules interleave the moves of the
requesters (60_exceptions.md R152); `FinishedRun` speaks of all of them. -/
def scriptSchedule (nReq : Nat) : List ScriptLine → Except AssemblyError (List Move)
  | [] => .ok []
  | line :: lines =>
    match scriptMoves nReq line, scriptSchedule nReq lines with
    | .ok moves, .ok later => .ok (moves ++ later)
    | .error e, _ => .error e
    | .ok _, .error e => .error e

end Sys2Proof.Machine
end

