-- ==== Sys2Proof/Machine/Step.lean ====
section
/-! DEFINITION. One step: the next move of the script of moves is made. The engine fetches nothing
(10_state.md R27, 20_memory.md R51); a command comes from the port of the requester the arbiter picks. -/

namespace Sys2Proof.Machine

/-- The move `m`, made in `s`. -/
def makeMove (s : State) (m : Move) : Host.Outcome State Fault Refusal :=
  match m with
  | .submit r rq => s.submit r rq
  | .accept r =>
    match s.grantable r with
    | .ok rq => exec (decode rq.word) (s.grant r rq)
    | .error e => .refused e
  | .start r =>
    match s.grantable r with
    | .ok rq => .next (s.startPhases r rq)
    | .error e => .refused e
  | .tick => s.tickMove
  | .consume r => s.consume r
  | .reset => .next s.resetEvent
  | .abort => s.abortMove

/-- One step: the next move. Where no agent moves, a command in execution goes on by itself, one phase, since
"a command, once accepted, always completes" (20_memory.md R50); the engine at rest "simply holds its
state" (60_exceptions.md R154, 70_reset_and_hazards.md R178). -/
def step (s : State) : Host.Outcome State Fault Refusal :=
  match s.inputs with
  | [] => if s.phase.atRest then .next s else .next s.tick
  | m :: rest => makeMove (s.withInputs rest) m

/-- The host's fixed name: `s` with the command word of `w`'s lowest `nbits` bits submitted by requester 0
and about to be accepted (notes/assumptions/10.md). -/
def State.withFetchWord (s : State) (nbits w : Nat) : State :=
  s.withNextCommand (BitVec.ofNat 33 (w % 2 ^ nbits))

end Sys2Proof.Machine
end

