-- ==== Sys2Proof/Safety.lean ====
section
/-! DEFINITION. What counts as a safe run, in the terms the statements use: the invariant of the machine,
where a generator state comes from (10_state.md R29), runs of a script, when one is over and when it has gone
wrong (70_reset_and_hazards.md R178), endless executions and the assumption FAIR (60_exceptions.md R153). -/

namespace Sys2Proof.Machine

/-! ### Where a generator state comes from -/

/-- R29 (c): the generator state after `n` DRAWs from `initialize(seed)`. `n` is the draw count, "a quantity
of the specification, not a register" (R154). -/
def Gen.after (seed : Word) : Nat → Gen
  | 0 => Gen.seeded seed
  | n + 1 => (Gen.after seed n).draw.1

/-- The word that draw number `n + 1` after `initialize(seed)` returns. -/
def Gen.wordAfter (seed : Word) (n : Nat) : Word := (Gen.after seed n).draw.2

/-- The words of the next `n` DRAWs. -/
def Gen.outputs : Nat → Gen → List Word
  | 0, _ => []
  | n + 1, g => g.draw.2 :: Gen.outputs n g.draw.1

/-- R29 (c): the generator state is one that some seed and some number of DRAWs lead to. -/
def Gen.Genuine (g : Gen) : Prop := ∃ seed n, g = Gen.after seed n

/-- R29 at every point of a run, inside a command too: on a healthy engine, the generator state in which the
command in execution (if there is one) ends is genuine. -/
def State.Provenance (s : State) : Prop := s.poison = false → s.complete.gen.Genuine

/-! ### The invariant of the machine -/

/-- The phases of a command are those of the command that was accepted, with its seed latched, and `fillidx`
stays in [3, 4096] (R26, R27, R88, R111). -/
def Phase.belongsTo (p : Phase) (i : Instr) : Prop :=
  match p with
  | .idle | .dead => False
  | .sAdv | .sRead | .sMac _ | .sCarry _ | .sFold _ | .sCorr _ | .sWrite _ | .sResp => i = .draw
  | .iLatch a | .iW0 a | .iW1 a | .iW2 a => i = .seed a
  | .iFill a k => i = .seed a ∧ 3 ≤ k.toNat ∧ k.toNat ≤ 4096
  | .iFin | .iResp => ∃ a, i = .seed a

/-- R65, R177: the kinds of response a command can get. -/
def Response.fits (resp : Response) (i : Instr) : Prop :=
  match resp with
  | .ok => ∃ a, i = .seed a
  | .okWord _ => i = .draw
  | .fatal => True

/-- What holds of every state that a run can reach. -/
structure State.Inv (s : State) : Prop where
  /-- The table is in canonical form, with indices in [0, 4095] (R23, R40). -/
  table : s.table.wf
  /-- The requesters are in canonical form, with numbers in [0, `N_REQ` - 1] (R152). -/
  requesters : Canonical idleStatus s.cfg.nReq s.requesters
  /-- `phase = DEAD` exactly when `poison = 1` (R27). -/
  poison : s.phase = .dead ↔ s.poison = true
  /-- At rest no command is in execution; otherwise it is the one that the phase belongs to (R27, R47). -/
  owner : match s.owner with
    | none => s.phase.atRest = true ∧ ∀ r rq, s.status r ≠ .executing rq
    | some o => ∃ rq, s.status o = .executing rq ∧ s.phase.belongsTo (decode rq.word) ∧
        ∀ r rq', s.status r = .executing rq' → r = o
  /-- Every response is one its command can get (R65). -/
  responses : ∀ r rq resp, s.status r = .answered rq resp → resp.fits (decode rq.word)

/-- No requester has been answered FATAL, consumed or not, and none can be: the engine is healthy. -/
structure State.NoFatal (s : State) : Prop where
  healthy : s.poison = false
  answered : ∀ r rq, s.status r ≠ .answered rq .fatal
  received : ∀ p ∈ s.received, p.response ≠ .fatal

/-! ### DRAWD -/

/-- R132's four properties of a division of a word by 2^32 - 1: it depends on the word alone (it is a
function), it is monotone, it maps 0 to 0.0 and 4294967295 to 1.0, and its value lies in [0.0, 1.0]. -/
def FourProperties (f : Word → DWord) : Prop :=
  (∀ v, binary64Finite (f v) = true) ∧
  (∀ v w : Word, v.toNat ≤ w.toNat → binary64Value (f v) ≤ binary64Value (f w)) ∧
  binary64Value (f 0) = 0 ∧ binary64Value (f 4294967295) = 1 ∧
  ∀ v, 0 ≤ binary64Value (f v) ∧ binary64Value (f v) ≤ 1

/-- What R132 lets a claim assume of a platform's own division, and no more: a premise for claims about the
`platform` form, not a fact of the model (notes/assumptions/7.md). -/
def PlatformDividesAsStated : Prop := FourProperties Config.platformQuotient

/-! ### Runs of a script -/

/-- A run begins with a reset event, of whatever state (R178): `n` steps from there, with `moves` as the moves of
the agents, of which none is another reset, lead to `t`. -/
def Reaches (s : State) (moves : List Move) (n : Nat) (t : State) : Prop :=
  Move.reset ∉ moves ∧
    (Host.Core.run Sys2Proof.core n (s.resetEvent.withInputs moves) : Host.Outcome State Fault Refusal) = .next t

/-- R178: the run of a script's lines is over when every requester has submitted every command of its script and
consumed the response to each; the engine is then at rest. -/
structure State.RunOver (s : State) (lines : List ScriptLine) : Prop where
  served : ∀ r, s.requestsServed r = requestsOf s.cfg.nReq r lines
  nothingOutstanding : ∀ r, s.status r = .idle
  atRest : s.phase.atRest = true

/-- R178: a run whose responses include `Fatal(LockFailure)` "has gone wrong". -/
def State.GoneWrong (s : State) : Prop := ∃ p ∈ s.received, p.response = .fatal

/-- R12, R178: `t` is the end of a run of a script under the parameters `cfg`, by any schedule of the agents'
moves. A `RESET` line begins another run and stands in no run's own lines. -/
structure FinishedRun (lines : List ScriptLine) (cfg : Config) (t : State) : Prop where
  legal : ∀ line ∈ lines, line.wf cfg.nReq = true ∧ line ≠ .reset
  reached : ∃ s moves n, s.cfg = cfg ∧ Reaches s moves n t
  ended : t.RunOver lines

/-- What a command does to a GeneratorState and answers, on a healthy engine (40_seed.md R80, 41_draw.md R100). -/
def effectOf : Instr → Gen → Gen × Response
  | .draw, g => (g.draw.1, .okWord g.draw.2)
  | .seed s, _ => (Gen.seeded s, .ok)

/-- 20_memory.md R47, R48: requests served one after another in the order given: the state they leave, and every
response with the requester that gets it. -/
def Gen.serve : List (Nat × Request) → Gen → Gen × List Received
  | [], g => (g, [])
  | (r, rq) :: later, g =>
    let e := effectOf (decode rq.word) g
    let rest := Gen.serve later e.1
    (rest.1, { requester := r, request := rq, response := e.2 } :: rest.2)

/-! ### Endless executions and FAIR -/

/-- An infinite execution: at each point the agents make a move, `μ n`, or none, and the machine steps. The
schedule is any sequence of moves, endless ones among them (00_scope.md R17). -/
def IsExecution (μ : Nat → Option Move) (τ : Nat → State) : Prop :=
  ∀ n, step ((τ n).withInputs (μ n).toList) = .next (τ (n + 1))

/-- Requester `r` has a command pending. -/
def State.isPending (s : State) (r : Nat) : Prop := ∃ rq, s.status r = .pending rq

/-- FAIR (R153): no command stays pending for ever. An assumption about the platform's arbiter; the step does
not enforce it. -/
def Fair (τ : Nat → State) : Prop := ∀ r n, ∃ m, n ≤ m ∧ ¬ (τ m).isPending r

end Sys2Proof.Machine
end

