-- ==== Sys2Proof/Certificates/Slice0/Obligations.lean ====
section
/-! DEFINITION. The statements for the provers, from the numbered rules of spec/. -/

open Sys2Proof Sys2Proof.Machine

/-! ### Encoding -/

/-- 30_encoding.md R62, R66 and the command words of 95_test_vectors.md P1 to P3: a few words written out
by the spec decode to the command they stand for. A sanity statement. -/
def Obligations.SpecWordsDecode : Prop :=
  decode 0x000000000#33 = .draw ∧ decode 0x0ffffffff#33 = .draw ∧
  decode 0x100000000#33 = .seed 0x00000000#32 ∧ decode 0x1deadbeef#33 = .seed 0xdeadbeef#32 ∧
  decodeTableWord 40 0x000000000 = some .draw ∧
  decodeTableWord 40 0x100000005 = some (.seed 5#32)

/-- R68 (with R63): the decoder reads bit 32 alone, and a seed is the low 32 bits as they stand. -/
def Obligations.DecodeFollowsTheOpBit : Prop :=
  ∀ cw : CommandWord,
    (cw.getLsbD 32 = false → decode cw = .draw) ∧
    (cw.getLsbD 32 = true → decode cw = .seed (BitVec.ofNat 32 (cw.toNat % 2 ^ 32)))

/-- Decoding and encoding agree: every command is read back whole, every SEED word is the encoding of what
it decodes to, every DRAW word decodes as the canonical zero word does, and no two commands share a
word. -/
def Obligations.DecodeAndEncodeAgree : Prop :=
  (∀ i : Instr, i.wf = true → decode (encode i) = i) ∧
  (∀ cw : CommandWord, encode (decode cw) = if cw.getLsbD 32 then cw else 0#33) ∧
  (∀ i j : Instr, encode i = encode j → i = j) ∧
  ∀ s : Word, (encode (.seed s)).toNat = 0x100000000 + s.toNat

/-- R64: every number of 33 bits is a legal command word, a longer one is no command word (the decoder of the
model rejects it by name, notes/assumptions/11.md), and a DRAW with any `arg` bits decodes to, and does,
exactly what a DRAW with `arg = 0` does. -/
def Obligations.EveryWordIsLegalAndDrawIgnoresItsArgument : Prop :=
  (∀ w : Nat, w < 2 ^ 33 → ∃ i, decodeNat w = .ok i ∧ decodeTableWord 40 w = some i) ∧
  (∀ w : Nat, 2 ^ 33 ≤ w → decodeNat w = .error .widerThanCommandWord) ∧
  ∀ (cw : CommandWord) (s : State), cw.getLsbD 32 = false →
    decode cw = decode 0#33 ∧ exec (decode cw) s = exec (decode 0#33) s

/-- The bit-level form of R65: the bits of the three responses, read back whole; the combination
`fatal = 1, valid = 1` is never sent, and the model reads it as no response (notes/assumptions/18.md). -/
def Obligations.ResponseWordBits : Prop :=
  (Response.word .ok).toNat = 0 ∧ (Response.word .fatal).toNat = 0x200000000 ∧
  (∀ v : Word, (Response.word (.okWord v)).toNat = 0x100000000 + v.toNat) ∧
  (∀ resp : Response, Response.ofWord resp.word = some resp) ∧
  (∀ resp : Response, ¬ (resp.word.getLsbD 33 = true ∧ resp.word.getLsbD 32 = true)) ∧
  ∀ rw : ResponseWord, rw.getLsbD 33 = true → rw.getLsbD 32 = true → Response.ofWord rw = none

/-- R66, R67: what a script operation assembles to, and which literals are an assembly error. -/
def Obligations.ScriptOperationsAssemble : Prop :=
  assemble .draw = .ok (.command 0#33) ∧ assemble .drawd = .ok .drawd ∧
  Request.word .drawd = 0#33 ∧
  ∀ n : Nat,
    (n ≤ 4294967295 → assemble (.seed n) = .ok (.command (BitVec.ofNat 33 (0x100000000 + n)))) ∧
    (4294967295 < n → assemble (.seed n) = .error .literalOutOfRange)

/-! ### SEED -/

/-- R82, R83, R84: on a healthy engine SEED completes, and the state it leaves. -/
def Obligations.SeedInstallsTheSeededState : Prop :=
  ∀ (seed : Word) (s : State), s.poison = false →
    ∃ t, exec (.seed seed) s = .next t ∧
      t.table.read 0 = seed ∧
      t.table.read 1 = seed + 0x9e3779b9#32 ∧
      t.table.read 2 = seed + 0x9e3779b9#32 + 0x9e3779b9#32 ∧
      (∀ i : Nat, 3 ≤ i → i ≤ 4095 →
        t.table.read (BitVec.ofNat 12 i) =
          t.table.read (BitVec.ofNat 12 (i - 3)) ^^^ t.table.read (BitVec.ofNat 12 (i - 2)) ^^^
            0x9e3779b9#32 ^^^ seed) ∧
      t.carry.toNat = 362436 ∧ t.cursor.toNat = 4095 ∧ t.poison = false ∧ t.phase = .idle

/-- R90: the period-7 structure of every seeded table, its last entry, its last seven entries, and that at
most 7 distinct values occur. -/
def Obligations.SeededTableHasPeriodSeven : Prop :=
  ∀ seed : Word,
    let K := 0x9e3779b9#32 ^^^ seed
    let p0 := seed
    let p1 := seed + 0x9e3779b9#32
    let p2 := seed + 0x9e3779b9#32 + 0x9e3779b9#32
    let P : List Word :=
      [p0, p1, p2, p0 ^^^ p1 ^^^ K, p1 ^^^ p2 ^^^ K, p0 ^^^ p1 ^^^ p2, p0 ^^^ p2 ^^^ K]
    (∀ i : Nat, i ≤ 4095 → P[i % 7]? = some ((Gen.seeded seed).table.read (BitVec.ofNat 12 i))) ∧
    (Gen.seeded seed).table.read 4095 = seed ∧
    (∀ k : Nat, k < 6 →
      P[k + 1]? = some ((Gen.seeded seed).table.read (BitVec.ofNat 12 (4089 + k)))) ∧
    ∀ i : Index, (Gen.seeded seed).table.read i ∈ P

/-- R89, R45: the state after SEED depends on the seed alone, so SEED is idempotent, and two engines seeded alike
draw the same words; different seeds leave different states. -/
def Obligations.SeedDependsOnItsOperandAlone : Prop :=
  (∀ (seed : Word) (s s' : State), s.poison = false → s'.poison = false →
    ∃ t t', exec (.seed seed) s = .next t ∧ exec (.seed seed) s' = .next t' ∧ t.gen = t'.gen ∧
      ∀ n : Nat, Gen.outputs n t.gen = Gen.outputs n t'.gen) ∧
  (∀ (seed : Word) (s t u : State), s.poison = false →
    exec (.seed seed) s = .next t → exec (.seed seed) t = .next u → u.gen = t.gen) ∧
  ∀ (seed seed' : Word) (s t t' : State), s.poison = false → seed ≠ seed' →
    exec (.seed seed) s = .next t → exec (.seed seed') s = .next t' → t.gen ≠ t'.gen

/-- R91: on a healthy engine `SEED s` leaves what it leaves right after reset; `SEED 0` restores exactly the
reset values, and the next ten DRAWs return the source's ten words. -/
def Obligations.SeedRestartsTheSequence : Prop :=
  (∀ (seed : Word) (s : State), s.poison = false →
    ∃ t u, exec (.seed seed) s = .next t ∧ exec (.seed seed) State.reset = .next u ∧ t.gen = u.gen ∧
      t.poison = u.poison ∧ t.phase = u.phase) ∧
  ∀ s : State, s.poison = false →
    ∃ t, exec (.seed 0#32) s = .next t ∧ t.gen = State.reset.gen ∧ t.poison = State.reset.poison ∧
      t.phase = State.reset.phase ∧
      (Gen.outputs 10 t.gen).map BitVec.toNat =
        [4294604858, 367747001, 735501178, 4294962861, 735512785, 3666536092, 3666528614, 4294955383,
          367747001, 735501178]

/-! ### DRAW -/

/-- R113 (`core(q, c)` written out on integers): on a healthy engine DRAW completes; the cursor, the carry
left, the entry written, and the response to the requester whose command is in execution. -/
def Obligations.DrawComputesCore : Prop :=
  ∀ s : State, s.poison = false → s.table.wf →
    ∃ t, exec .draw s = .next t ∧
      t.cursor.toNat = (s.cursor.toNat + 1) % 4096 ∧
      (let T : Nat := 18782 * (s.table.read t.cursor).toNat + s.carry.toNat
       let hi : Nat := T / 2 ^ 32
       let lo : Nat := T % 2 ^ 32
       let o : Nat := if lo + hi ≥ 2 ^ 32 then 1 else 0
       let x : Nat := (lo + hi + o) % 2 ^ 32
       t.carry.toNat = hi + o ∧
       ((t.table.read t.cursor).toNat : Int) = ((0xfffffffe : Int) - x) % 2 ^ 32) ∧
      t.poison = false ∧ t.phase = .idle ∧
      ∀ (o : Nat) (rq : Request), Canonical idleStatus s.cfg.nReq s.requesters → s.owner = some o →
        s.status o = .executing rq → t.status o = .answered rq (.okWord (t.table.read t.cursor))

/-- R102, R103: the seven numbered steps of DRAW, in their order, on 64-bit and 32-bit words. -/
def Obligations.DrawFollowsItsNumberedSteps : Prop :=
  ∀ s : State, s.poison = false → s.table.wf →
    ∃ t, exec .draw s = .next t ∧
      (let cursor : Index := s.cursor + 1
       let T : DWord := 18782#64 * (s.table.read cursor).setWidth 64 + s.carry.setWidth 64
       let carry1 : Word := (T >>> 32).setWidth 32
       let x1 : Word := (T + carry1.setWidth 64).setWidth 32
       let x2 : Word := if x1 < carry1 then x1 + 1#32 else x1
       let carry2 : Word := if x1 < carry1 then carry1 + 1#32 else carry1
       t.cursor = cursor ∧ t.carry = carry2 ∧ t.table.read cursor = 0xfffffffe#32 - x2 ∧
       ∀ (o : Nat) (rq : Request), Canonical idleStatus s.cfg.nReq s.requesters → s.owner = some o →
         s.status o = .executing rq → t.status o = .answered rq (.okWord (0xfffffffe#32 - x2)))

/-- R105: the adder tree of nine addends equals the exact integer sum, and so the MAC. -/
def Obligations.AdderTreeEqualsTheMac : Prop :=
  ∀ q c : Word,
    (adderTree q c).toNat =
      q.toNat * 2 ^ 1 + q.toNat * 2 ^ 2 + q.toNat * 2 ^ 3 + q.toNat * 2 ^ 4 + q.toNat * 2 ^ 6 +
        q.toNat * 2 ^ 8 + q.toNat * 2 ^ 11 + q.toNat * 2 ^ 14 + c.toNat ∧
    (adderTree q c).toNat = 18782 * q.toNat + c.toNat ∧ adderTree q c = mac q c

/-- R109: the bounds of the datapath. Where that rule says of `hi = 18782` that it needs `q = 0xffffffff`
and has `lo = c - 18782`, its own arithmetic gives the weaker condition stated here
(notes/assumptions/17.md); the rule's conclusion, that the correction cannot fire then, stands. -/
def Obligations.DatapathBounds : Prop :=
  (∀ q c : Word,
    let T := mac q c
    let hi := hi32 T
    let x := fold T hi
    T.toNat = 18782 * q.toNat + c.toNat ∧ T.toNat ≤ 18783 * 2 ^ 32 - 18783 ∧ T.toNat < 2 ^ 47 ∧
    hi.toNat ≤ 18782 ∧
    (hi.toNat = 18782 ↔ 18782 * (2 ^ 32 - q.toNat) ≤ c.toNat) ∧
    (ovf x hi = true → x.toNat ≤ 18781 ∧ (x + 1#32).toNat = x.toNat + 1 ∧
      (hi + 1#32).toNat = hi.toNat + 1 ∧ hi.toNat + 1 ≤ 18783) ∧
    (hi.toNat = 18782 → (lo32 T).toNat + hi.toNat ≤ c.toNat ∧ ovf x hi = false) ∧
    (drawWord q c).1.toNat ≤ 18782 ∧
    ((drawWord q c).1.toNat = 18782 →
      (hi.toNat = 18782 ∧ ovf x hi = false) ∨ (hi.toNat = 18781 ∧ ovf x hi = true))) ∧
  ∀ seed : Word, 18782 < (Gen.seeded seed).carry.toNat

/-- R112: the correction of step 5 fires exactly on carry-out of the fold. -/
def Obligations.CorrectionFiresOnCarryOut : Prop :=
  ∀ q c : Word,
    let T := mac q c
    let hi : Nat := (hi32 T).toNat
    let lo : Nat := (lo32 T).toNat
    let o : Nat := if lo + hi ≥ 2 ^ 32 then 1 else 0
    (ovf (fold T (hi32 T)) (hi32 T) = true ↔ lo + hi ≥ 2 ^ 32) ∧
    (drawX q c).toNat = (lo + hi + o) % 2 ^ 32 ∧
    (drawWord q c).1.toNat = hi + o ∧
    (lo + hi ≥ 2 ^ 32 → (drawX q c).toNat + 2 ^ 32 = lo + hi + 1 ∧
      1 ≤ (drawX q c).toNat ∧ (drawX q c).toNat ≤ 18782)

/-- R116: the recurrence invariant, an exact integer identity that every DRAW satisfies; its remainder is the `x`
after step 5, which is not fully reduced: it can be `2^32 - 1`, and the word is then `0xffffffff`. -/
def Obligations.EveryDrawSatisfiesTheRecurrence : Prop :=
  (∀ s : State, s.poison = false → s.table.wf →
    ∃ t, exec .draw s = .next t ∧
      (let x : Nat := (drawX (s.table.read t.cursor) s.carry).toNat
       x ≤ 2 ^ 32 - 1 ∧
       18782 * (s.table.read t.cursor).toNat + s.carry.toNat = t.carry.toNat * (2 ^ 32 - 1) + x ∧
       ((t.table.read t.cursor).toNat : Int) = ((2 ^ 32 - 1 : Int) - 1 - x) % 2 ^ 32 ∧
       (x = 2 ^ 32 - 1 → t.table.read t.cursor = 0xffffffff#32))) ∧
  ∀ q c : Word, (hi32 (mac q c)).toNat + (lo32 (mac q c)).toNat = 2 ^ 32 - 1 →
    (drawX q c).toNat = 2 ^ 32 - 1

/-- R110: the complement, its two cases, and its form as the inverted word less one. -/
def Obligations.ComplementOfTheFoldedWord : Prop :=
  ∀ x : Word,
    (x.toNat ≤ 0xfffffffe → (complement x).toNat = 0xfffffffe - x.toNat) ∧
    (x.toNat = 0xffffffff → (complement x).toNat = 0xffffffff) ∧ complement x = ~~~x - 1#32

/-- R114: draw number `n + 1` after `initialize(seed)` uses index `n mod 4096`, reads what SEED wrote there
for the first 4096 draws and the output of 4096 draws before from then on, and leaves the cursor
there; the lagged recurrence with lag 4096. -/
def Obligations.LaggedRecurrence : Prop :=
  ∀ (seed : Word) (n : Nat),
    (Gen.after seed (n + 1)).cursor.toNat = n % 4096 ∧
    (Gen.after seed (n + 1)).table.read (BitVec.ofNat 12 n) = Gen.wordAfter seed n ∧
    (n < 4096 → (Gen.after seed n).table.read (BitVec.ofNat 12 n) =
      (Gen.seeded seed).table.read (BitVec.ofNat 12 n)) ∧
    (4096 ≤ n →
      (Gen.after seed n).table.read (BitVec.ofNat 12 n) = Gen.wordAfter seed (n - 4096) ∧
      Gen.wordAfter seed n = (cmwcCore (Gen.wordAfter seed (n - 4096)) (Gen.after seed n).carry).2)

/-- R29 (d), (e): the carry and the cursor after `n` DRAWs from a seed. -/
def Obligations.CarryAndCursorAfterDraws : Prop :=
  ∀ (seed : Word) (n : Nat),
    (Gen.after seed n).cursor.toNat = (4095 + n) % 4096 ∧
    (n = 0 → (Gen.after seed n).carry.toNat = 362436) ∧
    (1 ≤ n → (Gen.after seed n).carry.toNat ≤ 18782)

/-! ### Frames, responses, the exception -/

/-- R31, R65: the frame of both commands, executed or refused: the poison flag, the parameters, what was
received, the moves to come and the model's counter stay; of the requesters only the one whose command
it is changes; a DRAW writes no table entry but the one after the cursor; a refused command writes no
generator state and no phase. -/
def Obligations.FrameOfDrawAndSeed : Prop :=
  ∀ (i : Instr) (s t : State), exec i s = .next t →
    t.poison = s.poison ∧ t.cfg = s.cfg ∧ t.received = s.received ∧ t.inputs = s.inputs ∧
    t.freeIdx = s.freeIdx ∧ t.owner = none ∧
    (∀ r : Nat, s.owner ≠ some r → t.status r = s.status r) ∧
    (i = .draw → ∀ j : Index, j ≠ s.cursor + 1 → t.table.read j = s.table.read j) ∧
    (s.poison = true → t.gen = s.gen ∧ t.phase = s.phase)

/-- R65, R101, R140, R141, R143: an accepted command completes with exactly one response, which goes to the
requester that submitted it; FATAL if and only if `poison = 1`, otherwise the new table entry at the
cursor for DRAW and no value for SEED. -/
def Obligations.EveryCommandIsAnsweredToItsOwner : Prop :=
  ∀ (i : Instr) (s : State) (o : Nat) (rq : Request),
    s.table.wf → Canonical idleStatus s.cfg.nReq s.requesters →
    s.owner = some o → s.status o = .executing rq →
    ∃ t, exec i s = .next t ∧ t.owner = none ∧
      (s.poison = true → t.status o = .answered rq .fatal) ∧
      (s.poison = false → i = .draw → t.status o = .answered rq (.okWord (t.table.read t.cursor))) ∧
      (s.poison = false → i ≠ .draw → t.status o = .answered rq .ok)

/-- R143: on a poisoned engine every command, SEED too, is refused whole: nothing of the engine is written, the
response is `Fatal(LockFailure)` (`fatal = 1, valid = 0`), and what the refused command leaves does not
depend on `table`, `carry` and `cursor`. -/
def Obligations.PoisonedEngineRefusesEveryCommandWhole : Prop :=
  ((Response.word .fatal).getLsbD 33 = true ∧ (Response.word .fatal).getLsbD 32 = false) ∧
  ∀ (i : Instr) (s : State), s.poison = true →
    ∃ t, exec i s = .next t ∧ t.table = s.table ∧ t.carry = s.carry ∧ t.cursor = s.cursor ∧
      t.poison = true ∧ t.phase = s.phase ∧
      (∀ g : Gen, exec i (s.withGen g) = .next (t.withGen g)) ∧
      ∀ (o : Nat) (rq : Request), Canonical idleStatus s.cfg.nReq s.requesters → s.owner = some o →
        s.status o = .executing rq → t.status o = .answered rq .fatal

/-- R144: `poison` is sticky: of all moves only reset clears it, and reset reinstalls `initialize(0)`; no command,
SEED included, clears it. -/
def Obligations.OnlyResetClearsPoison : Prop :=
  (∀ s t : State, s.poison = true → step s = .next t → t.poison = false →
    s.inputs.head? = some .reset ∧ t.gen = Gen.seeded 0#32 ∧ t.phase = .idle) ∧
  ∀ (i : Instr) (s t : State), s.poison = true → exec i s = .next t → t.poison = true

/-- R142, R145: no command sets `poison`: of all moves only abort does, with ALLOW_ABORT and while a command
is in execution. -/
def Obligations.OnlyAbortSetsPoison : Prop :=
  ∀ s t : State, s.poison = false → step s = .next t → t.poison = true →
    s.inputs.head? = some .abort ∧ s.cfg.allowAbort = true ∧ s.phase.atRest = false

/-- R142: the abort event: no response to the requester whose command it cuts short, `poison` set, phase
DEAD, nothing else at the port changed. -/
def Obligations.AbortPoisonsTheEngine : Prop :=
  ∀ (s : State) (rest : List Move) (o : Nat) (rq : Request),
    s.Inv → s.cfg.allowAbort = true → s.owner = some o → s.status o = .executing rq →
    s.inputs = .abort :: rest →
    ∃ t, step s = .next t ∧ t.poison = true ∧ t.phase = .dead ∧ t.owner = none ∧
      t.status o = .lost rq ∧ (∀ r, r ≠ o → t.status r = s.status r) ∧
      t.received = s.received ∧ t.inputs = rest ∧ t.cfg = s.cfg

/-- R142: with ALLOW_ABORT = false the abort event never occurs, nor does it at rest. That the model answers such
a move with a refusal of these names is its own choice (notes/assumptions/8.md). -/
def Obligations.AbortIsExcluded : Prop :=
  ∀ (s : State) (rest : List Move), s.inputs = .abort :: rest →
    (s.phase.atRest = true → step s = .refused .nothingExecuting) ∧
    (s.phase.atRest = false → s.cfg.allowAbort = false → step s = .refused .abortExcluded)

/-- R142: the requester whose command was aborted "receives no response, ever". The status `lost` that it keeps
until reset is the model's form of this (notes/assumptions/14.md). -/
def Obligations.AbortedRequesterIsNeverAnswered : Prop :=
  ∀ (s t : State) (r : Nat) (rq : Request), s.Inv → s.status r = .lost rq → step s = .next t →
    s.inputs.head? ≠ some .reset → t.status r = .lost rq

/-- U2 of 93_implementation_defined.md, with R143: nothing on a poisoned engine depends on the contents of
`table`, `carry` and `cursor`: two states that differ in them alone go on to states that differ in them
alone (and after reset, in nothing). -/
def Obligations.PoisonedContentsAreNeverRead : Prop :=
  ∀ (s t : State) (g : Gen), s.poison = true → s.phase = .dead → step s = .next t →
    ∃ g', step (s.withGen g) = .next (t.withGen g') ∧ (s.inputs.head? = some .reset → g' = t.gen)

/-! ### Reset -/

/-- R30: the reset values, with the recurrence and the period of the table's reset contents. -/
def Obligations.ResetValues : Prop :=
  State.reset.table.read 0 = 0x00000000#32 ∧ State.reset.table.read 1 = 0x9e3779b9#32 ∧
  State.reset.table.read 2 = 0x3c6ef372#32 ∧
  (∀ i : Nat, 3 ≤ i → i ≤ 4095 →
    State.reset.table.read (BitVec.ofNat 12 i) =
      State.reset.table.read (BitVec.ofNat 12 (i - 3)) ^^^
        State.reset.table.read (BitVec.ofNat 12 (i - 2)) ^^^ 0x9e3779b9#32) ∧
  (∀ i : Nat, i ≤ 4095 →
    [0x00000000#32, 0x9e3779b9#32, 0x3c6ef372#32, 0x00000000#32, 0x3c6ef372#32, 0xa2598acb#32,
      0xa2598acb#32][i % 7]? = some (State.reset.table.read (BitVec.ofNat 12 i))) ∧
  State.reset.table.read 4095 = 0x00000000#32 ∧
  State.reset.carry.toNat = 362436 ∧ State.reset.cursor.toNat = 4095 ∧
  State.reset.poison = false ∧ State.reset.phase = .idle

/-- R170: reset may come at any time, inside a command too; it installs `initialize(0)`, clears `poison`, and
leaves nothing in execution, pending or outstanding at any requester, which is the state that `SEED 0`
leaves on a healthy engine. (The moves to come and the parameters stay: notes/assumptions/9.md.) -/
def Obligations.ResetEventInstallsTheResetState : Prop :=
  ∀ (s : State) (rest : List Move), s.inputs = .reset :: rest →
    ∃ t, step s = .next t ∧ t.gen = Gen.seeded 0#32 ∧ t.gen = State.reset.gen ∧ t.poison = false ∧
      t.phase = .idle ∧ t.owner = none ∧ (∀ r, t.status r = .idle) ∧ t.inputs = rest ∧ t.cfg = s.cfg ∧
      ∀ u v : State, u.poison = false → exec (.seed 0#32) u = .next v →
        t.gen = v.gen ∧ t.poison = v.poison ∧ t.phase = v.phase

/-! ### The port and the step -/

/-- 20_memory.md R47: a step that accepts a pending command at rest is that command executed whole, on the
state in which it is in execution for its requester. -/
def Obligations.StepRunsTheAcceptedCommand : Prop :=
  ∀ (s : State) (r : Nat) (rq : Request) (rest : List Move),
    s.inputs = .accept r :: rest → s.status r = .pending rq → s.phase.atRest = true →
    step s = exec (decode rq.word) ((s.withInputs rest).grant r rq)

/-- The model's own form of a fetch (notes/assumptions/10.md; the engine fetches nothing, R27, R51): after
`withFetchWord` the next step runs exactly the command that the word decodes to, for requester 0. -/
def Obligations.FetchWordIsRunNext : Prop :=
  ∀ (s : State) (nbits w : Nat), s.Inv →
    ∃ u, step (s.withFetchWord nbits w) = exec (decode (BitVec.ofNat 33 (w % 2 ^ nbits))) u ∧
      u.gen = s.gen ∧ u.poison = s.poison ∧ u.owner = some 0 ∧ u.inputs = s.inputs ∧
      u.status 0 = .executing (.command (BitVec.ofNat 33 (w % 2 ^ nbits)))

/-- R152, R50: the engine at rest can accept any one of the pending commands, whichever requester's, and
an accepted command always completes. -/
def Obligations.AnyPendingCommandCanBeAccepted : Prop :=
  ∀ (s : State) (r : Nat) (rq : Request) (rest : List Move),
    s.Inv → s.phase.atRest = true → s.status r = .pending rq → s.inputs = .accept r :: rest →
    ∃ t resp, step s = .next t ∧ t.status r = .answered rq resp ∧ t.phase.atRest = true ∧
      (∀ r', r' ≠ r → t.status r' = s.status r') ∧ t.inputs = rest

/-- 00_scope.md R16, R177 (a): a requester may submit exactly when it is one of the `N_REQ` and has nothing
outstanding; its command is then pending and nothing else has changed. The name of the refusal otherwise is the
model's choice (notes/assumptions/8.md). -/
def Obligations.SubmitNeedsNothingOutstanding : Prop :=
  ∀ (s : State) (r : Nat) (rq : Request) (rest : List Move), s.Inv → s.inputs = .submit r rq :: rest →
    ((r < s.cfg.nReq ∧ s.status r = .idle) →
      ∃ t, step s = .next t ∧ t.status r = .pending rq ∧ (∀ r', r' ≠ r → t.status r' = s.status r') ∧
        t.gen = s.gen ∧ t.poison = s.poison ∧ t.phase = s.phase) ∧
    (¬ (r < s.cfg.nReq ∧ s.status r = .idle) → step s = .refused .cannotSubmit)

/-- R177: the environment has no other path to the generator state: a step changes it only by accepting a
command, by a phase of one (which the engine makes by itself where no agent moves), by reset or by abort. -/
def Obligations.OnlyCommandsAndEventsChangeTheGenerator : Prop :=
  ∀ s t : State, step s = .next t → t.gen ≠ s.gen →
    (∃ r, s.inputs.head? = some (.accept r)) ∨ s.inputs.head? = some .tick ∨
      (s.inputs = [] ∧ s.phase.atRest = false) ∨ s.inputs.head? = some .reset ∨
      s.inputs.head? = some .abort

/-- R7, R17: the parameters are not state of the machine: though the model carries them in `State`
(notes/assumptions/3.md), no step changes them. -/
def Obligations.ParametersNeverChange : Prop :=
  ∀ s t : State, step s = .next t → t.cfg = s.cfg

/-- R101, R31: the one word a DRAW returns is the only thing of the generator state that leaves the engine, by
whichever command: two states that differ in the generator state alone, and (for a DRAW that is executed)
whose next word is the same, differ in it alone after the command, so that the responses are the same. -/
def Obligations.OnlyTheDrawnWordLeavesTheEngine : Prop :=
  ∀ (i : Instr) (s : State) (g : Gen), (s.poison = false → i = .draw → s.gen.draw.2 = g.draw.2) →
    ∃ t g', exec i s = .next t ∧ exec i (s.withGen g) = .next (t.withGen g')

/-- R152, R48 (f): what a command does to the generator and what it answers depend on the generator state and
`poison` alone, not on the requester or on anything else at the port: on a healthy engine and on a poisoned
one. -/
def Obligations.RequestersAreInvisibleToTheAlgorithm : Prop :=
  ∀ (i : Instr) (s s' : State) (o o' : Nat) (rq rq' : Request),
    Canonical idleStatus s.cfg.nReq s.requesters → Canonical idleStatus s'.cfg.nReq s'.requesters →
    s.gen = s'.gen → s.poison = s'.poison →
    s.owner = some o → s'.owner = some o' → s.status o = .executing rq → s'.status o' = .executing rq' →
    ∃ t t' resp, exec i s = .next t ∧ exec i s' = .next t' ∧ t.gen = t'.gen ∧ t.poison = t'.poison ∧
      t.status o = .answered rq resp ∧ t'.status o' = .answered rq' resp

/-- R178, D7: on a platform that cannot cut a command short no response is FATAL. -/
def Obligations.NoFatalResponseWithoutAbort : Prop :=
  ∀ s t : State, s.Inv → s.cfg.allowAbort = false → s.NoFatal → step s = .next t → t.NoFatal

/-- R153 (FAIR): in a fair infinite execution a pending command is accepted, unless a reset discards it. FAIR is a
premise: the step does not enforce it (notes/assumptions/12.md). -/
def Obligations.FairArbiterAcceptsPendingCommands : Prop :=
  ∀ (μ : Nat → Option Move) (τ : Nat → State), IsExecution μ τ → Fair τ →
    ∀ n r, (τ n).isPending r → (∀ m, n ≤ m → μ m ≠ some .reset) →
      ∃ m, n ≤ m ∧ (τ m).isPending r ∧ (μ m = some (.accept r) ∨ μ m = some (.start r))

/-- R153: FAIR is "an assumption about the platform's arbiter, not a property the engine's rules enforce": there
is an endless execution in which one requester is served again and again and another's command stays
pending for ever. -/
def Obligations.FairIsNotEnforced : Prop :=
  ∃ (μ : Nat → Option Move) (τ : Nat → State), IsExecution μ τ ∧ (τ 0).Inv ∧ ¬ Fair τ ∧
    (∀ n, (τ n).isPending 1) ∧ ∀ n, ∃ m, n ≤ m ∧ μ m = some (.accept 0)

/-- R50: a command, once accepted, always completes: in every infinite execution, whatever the other agents do and
whether the arbiter is fair or not, a command in execution is answered, with no error, unless a reset or an
abort removes it. The bound counts the phases (R88, R111) and the two moves that each requester can still
make. -/
def Obligations.AcceptedCommandAlwaysCompletes : Prop :=
  ∀ (μ : Nat → Option Move) (τ : Nat → State), IsExecution μ τ →
    ∀ (n o : Nat) (rq : Request), (τ n).Inv → (τ n).owner = some o → (τ n).status o = .executing rq →
      (∀ m, n ≤ m → μ m ≠ some .reset ∧ μ m ≠ some .abort) →
      ∃ m resp, n < m ∧ m ≤ n + 4100 + 2 * (τ n).cfg.nReq ∧
        (τ m).status o = .answered rq resp ∧ resp ≠ .fatal

/-! ### The sequencer -/

/-- R111: the phases of DRAW, in order, each with its step of R100; a command accepted by a poisoned engine enters
none of them. -/
def Obligations.DrawPhasesInOrder : Prop :=
  ∀ (s : State) (q x : Word) (T : DWord) (r : Nat) (rq : Request),
    (decode rq.word = .draw → s.poison = false → (s.startPhases r rq).phase = .sAdv) ∧
    (decode rq.word = .draw → s.poison = true → (s.startPhases r rq).phase = s.phase) ∧
    (s.phase = .sAdv → s.tick.phase = .sRead ∧ s.tick.cursor.toNat = (s.cursor.toNat + 1) % 4096) ∧
    (s.phase = .sRead → s.tick.phase = .sMac (s.table.read s.cursor)) ∧
    (s.phase = .sMac q → ∃ T', s.tick.phase = .sCarry T' ∧
      T'.toNat = 18782 * q.toNat + s.carry.toNat) ∧
    (s.phase = .sCarry T → s.tick.phase = .sFold T ∧ s.tick.carry.toNat = T.toNat / 2 ^ 32) ∧
    (s.phase = .sFold T → ∃ x', s.tick.phase = .sCorr x' ∧
      x'.toNat = (T.toNat + s.carry.toNat) % 2 ^ 32) ∧
    (s.phase = .sCorr x →
      (x < s.carry → s.tick.phase = .sWrite (x + 1#32) ∧ s.tick.carry = s.carry + 1#32) ∧
      (¬ x < s.carry → s.tick.phase = .sWrite x ∧ s.tick.carry = s.carry)) ∧
    (s.phase = .sWrite x → s.tick.phase = .sResp ∧
      s.tick.table = s.table.write s.cursor (0xfffffffe#32 - x)) ∧
    (s.phase = .sResp → s.tick = s.finishWith (.okWord (s.table.read s.cursor)))

/-- R88: the phases of SEED, in order, each with its line of R80; a command accepted by a poisoned engine enters
none of them. That the test `fillidx <= 4095` is made once more at 4096, in a turn of `I_FILL` that writes
nothing and leads to `I_FIN`, is read from R88 by inference (notes/assumptions/15.md). -/
def Obligations.SeedPhasesInOrder : Prop :=
  ∀ (s : State) (a : Word) (k : BitVec 13) (r : Nat) (rq : Request),
    (decode rq.word = .seed a → s.poison = false → (s.startPhases r rq).phase = .iLatch a) ∧
    (decode rq.word = .seed a → s.poison = true → (s.startPhases r rq).phase = s.phase) ∧
    (s.phase = .iLatch a → s.tick.phase = .iW0 a) ∧
    (s.phase = .iW0 a → s.tick.phase = .iW1 a ∧ s.tick.table = s.table.write 0 a) ∧
    (s.phase = .iW1 a → s.tick.phase = .iW2 a ∧ s.tick.table = s.table.write 1 (a + 0x9e3779b9#32)) ∧
    (s.phase = .iW2 a → s.tick.phase = .iFill a 3 ∧
      s.tick.table = s.table.write 2 (a + 0x3c6ef372#32)) ∧
    (s.phase = .iFill a k → 3 ≤ k.toNat → k.toNat ≤ 4095 →
      s.tick.phase = .iFill a (BitVec.ofNat 13 (k.toNat + 1)) ∧
      s.tick.table = s.table.write (BitVec.ofNat 12 k.toNat)
        (s.table.read (BitVec.ofNat 12 (k.toNat - 3)) ^^^
          s.table.read (BitVec.ofNat 12 (k.toNat - 2)) ^^^ 0x9e3779b9#32 ^^^ a)) ∧
    (s.phase = .iFill a k → 4095 < k.toNat → s.tick.phase = .iFin ∧ s.tick.table = s.table) ∧
    (s.phase = .iFin → s.tick.phase = .iResp ∧ s.tick.carry.toNat = 362436 ∧
      s.tick.cursor.toNat = 4095) ∧
    (s.phase = .iResp → s.tick = s.finishWith .ok)

/-- R47, R88, R111: the sequencer refines the atomic command. On a healthy engine a command started and taken
through its phases, one move each, ends in exactly the state in which the command executed whole ends, and
it does so by itself where no agent moves. On a poisoned engine (R27, R143) the start alone does what the
whole command does: FATAL, at once. (That the model has both forms of a command is its own choice,
notes/assumptions/4.md.) -/
def Obligations.PhasesRefineTheAtomicCommand : Prop :=
  ∀ (s : State) (r : Nat) (rq : Request) (rest : List Move),
    s.Inv → s.phase.atRest = true → s.status r = .pending rq →
    let n := (firstPhase (decode rq.word)).left
    (s.poison = false →
      (Host.Core.run Sys2Proof.core (1 + n)
          (s.withInputs (.start r :: (List.replicate n .tick ++ rest))) :
        Host.Outcome State Fault Refusal) = step (s.withInputs (.accept r :: rest)) ∧
      (Host.Core.run Sys2Proof.core (1 + n) (s.withInputs [.start r]) :
        Host.Outcome State Fault Refusal) = step (s.withInputs [.accept r])) ∧
    (s.poison = true →
      step (s.withInputs (.start r :: rest)) = step (s.withInputs (.accept r :: rest)) ∧
      ∃ t, step (s.withInputs (.start r :: rest)) = .next t ∧ t.status r = .answered rq .fatal ∧
        t.gen = s.gen ∧ t.poison = true ∧ t.phase = .dead)

/-- R50, R176: a command in execution always completes, after a bounded number of phases, and is answered with no
error. That the bound is 4100 follows from the phases as the spec names them (its decision D15). -/
def Obligations.CommandInExecutionCompletes : Prop :=
  ∀ (s : State) (o : Nat) (rq : Request), s.Inv → s.owner = some o → s.status o = .executing rq →
    s.phase.left ≤ 4100 ∧ s.complete.phase = .idle ∧ s.complete.owner = none ∧
    s.complete.poison = false ∧
    ∃ resp, s.complete.status o = .answered rq resp ∧ resp ≠ .fatal

/-! ### Invariants -/

/-- The invariant of the machine holds right after reset. -/
def Obligations.ResetMeetsTheInvariant : Prop := State.reset.Inv

/-- Every step keeps the invariant of the machine: the table and the requesters in canonical form, DEAD
exactly when poisoned, one command in execution at most and its phases its own, and every response of
a kind its command can get. -/
def Obligations.EveryStepKeepsTheInvariant : Prop :=
  ∀ s t : State, s.Inv → step s = .next t → t.Inv

/-- R29 (c) right after reset. -/
def Obligations.ResetStateIsGenuine : Prop := State.reset.Provenance

/-- R29 (c), R17: on a healthy engine the generator state is always `initialize` of some seed followed by
some number of DRAWs; every step keeps this, inside a command too. -/
def Obligations.EveryStepKeepsProvenance : Prop :=
  ∀ s t : State, s.Inv → s.Provenance → step s = .next t → t.Provenance

/-! ### DRAWD -/

/-- R131: the conversion of the word to binary64 is exact. (That the format is binary64 is general knowledge, not
the source's: notes/assumptions/7.md.) -/
def Obligations.ConversionToDoubleIsExact : Prop :=
  ∀ v : Word, binary64Finite (wordToDouble v) = true ∧ binary64Value (wordToDouble v) = (v.toNat : ℚ)

/-- R132: under every IEEE 754 rounding direction the division has the four properties: a function of the
word, monotone, 0 to 0.0 and 4294967295 to 1.0, within [0.0, 1.0]. (notes/assumptions/7.md.) -/
def Obligations.EveryIeeeDivisionHasTheFourProperties : Prop :=
  ∀ mode : Rounding, FourProperties (divideByD (.ieee mode))

/-- R132, R133 (decision D14): in the default direction DRAWD returns the binary64 value nearest the exact
rational `v / (2^32 - 1)`. (The format and the direction are the spec's decision: notes/assumptions/7.md.) -/
def Obligations.DefaultDivisionIsNearest : Prop :=
  ∀ (v : Word) (b : DWord), binary64Finite b = true →
    |binary64Value (divideByD (.ieee .nearestEven) v) - (v.toNat : ℚ) / (2 ^ 32 - 1)| ≤
      |binary64Value b - (v.toNat : ℚ) / (2 ^ 32 - 1)|

/-- R67, R130: to the engine a DRAWD is a DRAW: same generator state, same response. -/
def Obligations.DrawdIsOneDraw : Prop :=
  ∀ (s : State) (r : Nat) (cw : CommandWord), s.Inv → s.phase.atRest = true → cw.getLsbD 32 = false →
    r < s.cfg.nReq →
    ∃ t u resp,
      makeMove (s.setStatus r (.pending .drawd)) (.accept r) = .next t ∧
      makeMove (s.setStatus r (.pending (.command cw))) (.accept r) = .next u ∧
      t.gen = u.gen ∧ t.poison = u.poison ∧ t.phase = u.phase ∧
      t.status r = .answered .drawd resp ∧ u.status r = .answered (.command cw) resp

/-- R130, R177 (b), R178: consuming a response: it is recorded as received, and its requester, who then has nothing
outstanding, makes of it: of a word, the quotient if it asked for a DRAWD and the word otherwise; of a FATAL,
the same fatal error. Nothing else changes. -/
def Obligations.ConsumedResponseIsTheResult : Prop :=
  ∀ (s : State) (r : Nat) (rq : Request) (resp : Response) (rest : List Move),
    s.Inv → s.inputs = .consume r :: rest → s.status r = .answered rq resp →
    ∃ t res, step s = .next t ∧
      t.received = s.received ++ [{ requester := r, request := rq, response := resp }] ∧
      t.receivedBy r = s.receivedBy r ++ [resp] ∧ t.resultsBy r = s.resultsBy r ++ [res] ∧
      t.status r = .idle ∧ (∀ r', r' ≠ r → t.status r' = s.status r' ∧ t.receivedBy r' = s.receivedBy r') ∧
      t.gen = s.gen ∧ t.poison = s.poison ∧ t.phase = s.phase ∧ t.owner = s.owner ∧ t.inputs = rest ∧
      t.cfg = s.cfg ∧ t.freeIdx = s.freeIdx ∧
      (resp = .ok → res = .ok) ∧ (resp = .fatal → res = .fatal) ∧
      ∀ v, resp = .okWord v →
        (rq = .drawd → res = .double (divideByD s.cfg.division v)) ∧ (rq ≠ .drawd → res = .word v)

/-! ### Runs of a script -/

/-- R66: what a script line assembles to: `RESET` to nothing, an operation to its request, and a line whose
requester number or literal is out of range to an error. That a requester number out of range is an assembly
error, reported before the literal's, is the model's choice (log entry 21, DESIGN CHOICE): R66 says so of a literal
only. -/
def Obligations.ScriptLinesAssemble : Prop :=
  ∀ nReq : Nat,
    assembleLine nReq .reset = .ok none ∧
    (∀ (r : Nat) (op : ScriptOp) (rq : Request), r < nReq → assemble op = .ok rq →
      assembleLine nReq (.command r op) = .ok (some (r, rq))) ∧
    (∀ (r : Nat) (op : ScriptOp), nReq ≤ r → assembleLine nReq (.command r op) = .error .noSuchRequester) ∧
    ∀ line : ScriptLine, line.wf nReq = true ↔ ∃ o, assembleLine nReq line = .ok o

/-- R47, R48 (a), (b), R178: every finished run of a script, by whatever schedule of the agents, aborts and phase by
phase executions among it, is sequentially consistent: there is one order of all the requests, in which each
requester's stand in the order of its script, such that the final state and the responses that each
requester received are those of serving the requests in that order, one after another, from
`initialize(0)`. -/
def Obligations.FinishedRunsAreSequentiallyConsistent : Prop :=
  ∀ (lines : List ScriptLine) (cfg : Config) (t : State), FinishedRun lines cfg t →
    ∃ order : List (Nat × Request),
      (∀ r, (order.filter (·.1 == r)).map (·.2) = requestsOf cfg.nReq r lines) ∧
      t.gen = (Gen.serve order (Gen.seeded 0#32)).1 ∧ t.poison = false ∧
      ∀ r, t.received.filter (·.requester == r) =
        (Gen.serve order (Gen.seeded 0#32)).2.filter (·.requester == r)

/-- R48 (f), R115: with a single requester the final state and the sequence of responses are a function of the
command sequence alone: two finished runs of its script end alike, whatever the schedules and the
platforms' other parameters. -/
def Obligations.OneRequesterRunsAreDetermined : Prop :=
  ∀ (lines : List ScriptLine) (cfg cfg' : Config) (t u : State) (k : Nat),
    cfg.nReq = cfg'.nReq → (∀ line ∈ lines, ∃ op, line = .command k op) →
    FinishedRun lines cfg t → FinishedRun lines cfg' u →
    t.gen = u.gen ∧ t.poison = u.poison ∧ t.receivedBy k = u.receivedBy k
end

