-- ==== Sys2Proof/Laws/Datapath.lean ====
section
/-! SUPPORT. What each stage of the datapath computes, on mathematical integers. -/

namespace Sys2Proof.Machine

@[simp] theorem hi32_toNat (v : DWord) : (hi32 v).toNat = v.toNat / 2 ^ 32 := by
  have := v.isLt
  simp only [hi32, BitVec.extractLsb'_toNat, Nat.shiftRight_eq_div_pow]
  omega

@[simp] theorem lo32_toNat (v : DWord) : (lo32 v).toNat = v.toNat % 2 ^ 32 := by
  simp [lo32]

/-- R104, R109: the MAC is exact; 64 bits hold the sum without wrapping. -/
@[simp] theorem mac_toNat (q c : Word) : (mac q c).toNat = 18782 * q.toNat + c.toNat := by
  have := q.isLt
  have := c.isLt
  simp only [mac, mulA, BitVec.toNat_add, BitVec.toNat_mul, BitVec.toNat_setWidth, BitVec.toNat_ofNat]
  omega

/-- R107: the fold depends on the low halves alone. -/
@[simp] theorem fold_toNat (t : DWord) (c : Word) :
    (fold t c).toNat = (t.toNat % 2 ^ 32 + c.toNat) % 2 ^ 32 := by
  have := c.isLt
  simp only [fold, lo32_toNat, BitVec.toNat_add, BitVec.toNat_setWidth]
  omega

theorem ovf_eq (x c : Word) : ovf x c = decide (x.toNat < c.toNat) := rfl

theorem correct_of_ovf {x c : Word} (h : x.toNat < c.toNat) : correct x c = (x + 1, c + 1) := by
  simp [correct, ovf_eq, h]

theorem correct_of_not_ovf {x c : Word} (h : ¬ x.toNat < c.toNat) : correct x c = (x, c) := by
  simp [correct, ovf_eq, h]

/-- R110, the wrapping subtraction. -/
@[simp] theorem complement_toNat (x : Word) :
    (complement x).toNat = (2 ^ 32 + 0xfffffffe - x.toNat) % 2 ^ 32 := by
  have := x.isLt
  have e : complBase.toNat = 0xfffffffe := rfl
  rw [complement, BitVec.toNat_sub, e]
  omega

theorem drawWord_snd (q c : Word) : (drawWord q c).2 = complement (drawX q c) := rfl

end Sys2Proof.Machine
end

