-- ==== Sys2Proof/Laws/Sparse.lean ====
section
/-! SUPPORT. The laws of sparse lists: reading after writing, the canonical form, and equality of canonical
lists from equality of what they read as. -/

namespace Sys2Proof.Machine

variable {α : Type} {d : Nat → α} {bound : Nat}

@[simp] theorem lookup_nil (k : Nat) : lookup d [] k = d k := rfl

theorem lookup_of_lt {m : List (Nat × α)} {k : Nat} (h : ∀ c ∈ m, k < c.1) : lookup d m k = d k := by
  induction m with
  | nil => rfl
  | cons c m ih =>
    have hc := h c (by simp)
    simp only [lookup]
    rw [if_neg (by omega)]
    exact ih fun c hc => h c (by simp [hc])

variable [DecidableEq α]

/-- Where every other key is larger, what `keep` puts in front is read back. -/
theorem lookup_keep_same {m : List (Nat × α)} {k : Nat} (v : α) (h : ∀ c ∈ m, k < c.1) :
    lookup d (keep d k v m) k = v := by
  unfold keep
  split
  · next hv => rw [lookup_of_lt h, hv]
  · simp [lookup]

theorem lookup_keep_other {m : List (Nat × α)} {j k : Nat} (v : α) (h : j ≠ k) :
    lookup d (keep d k v m) j = lookup d m j := by
  unfold keep
  split
  · rfl
  · simp [lookup, h]

theorem lookup_store_other (m : List (Nat × α)) {j k : Nat} (v : α) (h : j ≠ k) :
    lookup d (store d m k v) j = lookup d m j := by
  induction m with
  | nil => simp only [store]; exact lookup_keep_other v h
  | cons c m ih =>
    obtain ⟨k', v'⟩ := c
    simp only [store]
    split
    · exact lookup_keep_other v h
    · split
      · next hk => subst hk; rw [lookup_keep_other v h]; simp [lookup, h]
      · simp [lookup, ih]

theorem lookup_store_same {m : List (Nat × α)} (hm : m.Pairwise (fun a b => a.1 < b.1)) (k : Nat) (v : α) :
    lookup d (store d m k v) k = v := by
  induction m with
  | nil => simp only [store]; exact lookup_keep_same v (by simp)
  | cons c m ih =>
    obtain ⟨k', v'⟩ := c
    rw [List.pairwise_cons] at hm
    simp only [store]
    split
    · next hk =>
      refine lookup_keep_same v ?_
      rintro c hc
      rcases List.mem_cons.1 hc with rfl | hc
      · exact hk
      · exact Nat.lt_trans hk (hm.1 c hc)
    · split
      · next hk => subst hk; exact lookup_keep_same v hm.1
      · next h1 h2 => simp [lookup, h2, ih hm.2]

/-- A value that is no default is read back whatever the list's order. -/
theorem lookup_store_ne (m : List (Nat × α)) (k : Nat) {v : α} (hv : v ≠ d k) :
    lookup d (store d m k v) k = v := by
  induction m with
  | nil => simp [store, keep, hv, lookup]
  | cons c m ih =>
    obtain ⟨k', v'⟩ := c
    simp only [store, keep, hv, if_false]
    split
    · simp [lookup]
    · split
      · simp [lookup]
      · next h => simp [lookup, h, ih]

theorem mem_keep {k : Nat} {v : α} {m : List (Nat × α)} {c : Nat × α} (h : c ∈ keep d k v m) :
    (c = (k, v) ∧ v ≠ d k) ∨ c ∈ m := by
  unfold keep at h
  split at h
  · exact .inr h
  · next hv => exact (List.mem_cons.1 h).imp (fun e => ⟨e, hv⟩) id

theorem mem_store {k : Nat} {v : α} {m : List (Nat × α)} {c : Nat × α} (h : c ∈ store d m k v) :
    (c = (k, v) ∧ v ≠ d k) ∨ c ∈ m := by
  induction m with
  | nil => exact mem_keep h
  | cons c' m ih =>
    obtain ⟨k', v'⟩ := c'
    simp only [store] at h
    split at h
    · exact mem_keep h
    · split at h
      · exact (mem_keep h).imp id (fun h => List.mem_cons_of_mem _ h)
      · rcases List.mem_cons.1 h with rfl | h
        · exact .inr (by simp)
        · exact (ih h).imp id (fun h => List.mem_cons_of_mem _ h)

theorem canonical_nil : Canonical d bound ([] : List (Nat × α)) := by simp [Canonical]

theorem Canonical.tail {c : Nat × α} {m : List (Nat × α)} (h : Canonical d bound (c :: m)) :
    Canonical d bound m :=
  ⟨(List.pairwise_cons.1 h.1).2, fun c hc => h.2 c (List.mem_cons_of_mem _ hc)⟩

/-- What is kept in front of a canonical list keeps it canonical, if its key is the smallest. -/
theorem Canonical.keep {m : List (Nat × α)} (h : Canonical d bound m) {k : Nat} (v : α) (hk : k < bound)
    (hlt : ∀ c ∈ m, k < c.1) : Canonical d bound (keep d k v m) := by
  unfold Sys2Proof.Machine.keep
  split
  · exact h
  · next hv =>
    refine ⟨List.pairwise_cons.2 ⟨hlt, h.1⟩, fun c hc => ?_⟩
    rcases List.mem_cons.1 hc with rfl | hc
    · exact ⟨hk, hv⟩
    · exact h.2 c hc

theorem Canonical.store {m : List (Nat × α)} (h : Canonical d bound m) {k : Nat} (v : α) (hk : k < bound) :
    Canonical d bound (store d m k v) := by
  induction m with
  | nil => exact canonical_nil.keep v hk (by simp)
  | cons c m ih =>
    obtain ⟨k', v'⟩ := c
    have hp := List.pairwise_cons.1 h.1
    simp only [Sys2Proof.Machine.store]
    split
    · next hlt =>
      refine h.keep v hk fun c hc => ?_
      rcases List.mem_cons.1 hc with rfl | hc
      · exact hlt
      · exact Nat.lt_trans hlt (hp.1 c hc)
    · split
      · next heq => subst heq; exact h.tail.keep v hk hp.1
      · refine ⟨List.pairwise_cons.2 ⟨fun c hc => ?_, (ih h.tail).1⟩, fun c hc => ?_⟩
        · rcases mem_store hc with ⟨rfl, -⟩ | hc
          · show k' < k; omega
          · exact hp.1 c hc
        · rcases List.mem_cons.1 hc with rfl | hc
          · exact h.2 _ (by simp)
          · exact (ih h.tail).2 c hc

/-- A key that is not read as its default is listed, so it lies below the bound. -/
theorem Canonical.lt_of_lookup {m : List (Nat × α)} (h : Canonical d bound m) {k : Nat}
    (hk : lookup d m k ≠ d k) : k < bound := by
  induction m with
  | nil => exact absurd rfl hk
  | cons c m ih =>
    obtain ⟨k', v'⟩ := c
    by_cases e : k = k'
    · subst e; exact (h.2 (k, v') (by simp)).1
    · exact ih h.tail (by simpa [lookup, e] using hk)

/-- Two canonical lists that read the same everywhere are the same list. -/
theorem Canonical.ext {m m' : List (Nat × α)} {bound' : Nat} (h : Canonical d bound m)
    (h' : Canonical d bound' m') (e : ∀ k, lookup d m k = lookup d m' k) : m = m' := by
  induction m generalizing m' with
  | nil =>
    cases m' with
    | nil => rfl
    | cons c m' =>
      have := e c.1
      simp only [lookup, if_true] at this
      exact absurd this.symm (h'.2 c (by simp)).2
  | cons c m ih =>
    cases m' with
    | nil =>
      have := e c.1
      simp only [lookup, if_true] at this
      exact absurd this (h.2 c (by simp)).2
    | cons c' m' =>
      obtain ⟨k, v⟩ := c
      obtain ⟨k', v'⟩ := c'
      have hp := List.pairwise_cons.1 h.1
      have hp' := List.pairwise_cons.1 h'.1
      have hv : v ≠ d k := (h.2 (k, v) (by simp)).2
      have hv' : v' ≠ d k' := (h'.2 (k', v') (by simp)).2
      have hk : k = k' := by
        rcases Nat.lt_trichotomy k k' with hlt | heq | hgt
        · have := e k
          rw [lookup_of_lt (m := (k', v') :: m')] at this
          · simp [lookup] at this; exact absurd this hv
          · rintro c hc
            rcases List.mem_cons.1 hc with rfl | hc
            · exact hlt
            · exact Nat.lt_trans hlt (hp'.1 c hc)
        · exact heq
        · have := e k'
          rw [lookup_of_lt (m := (k, v) :: m)] at this
          · simp [lookup] at this; exact absurd this.symm hv'
          · rintro c hc
            rcases List.mem_cons.1 hc with rfl | hc
            · exact hgt
            · exact Nat.lt_trans hgt (hp.1 c hc)
      subst hk
      have hvv : v = v' := by have := e k; simpa [lookup] using this
      subst hvv
      congr 1
      refine ih h.tail h'.tail fun j => ?_
      by_cases hj : j = k
      · subst hj; rw [lookup_of_lt hp.1, lookup_of_lt hp'.1]
      · have := e j; simpa [lookup, hj] using this

end Sys2Proof.Machine
end

