-- ==== Sys2Proof/Laws/Memory.lean ====
section
/-! SUPPORT. The laws of the lag table: reading after writing, and that every operation on it keeps its
canonical form. -/

namespace Sys2Proof.Machine

theorem index_toNat_ne {i j : Index} (h : i ≠ j) : i.toNat ≠ j.toNat :=
  fun e => h (BitVec.eq_of_toNat_eq e)

theorem Memory.read_write_same {m : Memory} (h : m.wf) (i : Index) (v : Word) :
    (m.write i v).read i = v := lookup_store_same h.1 _ v

theorem Memory.read_write_other (m : Memory) {i j : Index} (v : Word) (h : j ≠ i) :
    (m.write i v).read j = m.read j := lookup_store_other m v (index_toNat_ne h)

theorem Memory.write_wf {m : Memory} (h : m.wf) (i : Index) (v : Word) : (m.write i v).wf :=
  Canonical.store h v (by have := i.isLt; simpa [lag] using this)

theorem Memory.lookup_high {m : Memory} (h : m.wf) {k : Nat} (hk : lag ≤ k) :
    lookup resetWord m k = resetWord k := by
  by_contra hne
  exact absurd (Canonical.lt_of_lookup h hne) (by omega)

/-- Two tables in canonical form with equal entries are equal. -/
theorem Memory.ext {m m' : Memory} (h : m.wf) (h' : m'.wf) (e : ∀ i, m.read i = m'.read i) : m = m' := by
  refine Canonical.ext h h' fun k => ?_
  by_cases hk : k < lag
  · have := e (BitVec.ofNat 12 k)
    simpa [Memory.read, Nat.mod_eq_of_lt (show k < 4096 from hk)] using this
  · rw [Memory.lookup_high h (by omega), Memory.lookup_high h' (by omega)]

theorem seedFrom_bounds {seed : Word} {n i : Nat} {a b c : Word} :
    ∀ p ∈ seedFrom seed n i a b c, i ≤ p.1 := by
  induction n generalizing i a b c with
  | zero => simp [seedFrom]
  | succ n ih =>
    intro p hp
    rcases mem_keep hp with ⟨rfl, -⟩ | hp
    · exact Nat.le_refl _
    · exact Nat.le_of_succ_le (ih p hp)

theorem seedFrom_canonical (seed : Word) {n i : Nat} (a b c : Word) (h : i + n ≤ lag) :
    Canonical resetWord lag (seedFrom seed n i a b c) := by
  induction n generalizing i a b c with
  | zero => exact canonical_nil
  | succ n ih =>
    exact (ih b c _ (by omega)).keep a (by omega) fun p hp => seedFrom_bounds p hp

theorem seedTable_wf (seed : Word) : (seedTable seed).wf := 
  seedFrom_canonical seed _ _ _ (Nat.le_of_eq (Nat.zero_add lag))

/-- The entry at the front of what `seedFrom` lays out. -/
theorem seedFrom_first (seed : Word) (n i : Nat) (a b c : Word) :
    lookup resetWord (seedFrom seed (n + 1) i a b c) i = a :=
  lookup_keep_same a fun p hp => seedFrom_bounds p hp

/-- The entries behind the front are those laid out from the next index on. -/
theorem seedFrom_rest (seed : Word) (n i : Nat) (a b c : Word) {j : Nat} (h : i < j) :
    lookup resetWord (seedFrom seed (n + 1) i a b c) j =
      lookup resetWord (seedFrom seed n (i + 1) b c (mix a b seed)) j :=
  lookup_keep_other a (by omega)

theorem freeTableFrom_bounds {n k i : Nat} : ∀ p ∈ freeTableFrom n k i, i ≤ p.1 := by
  induction k generalizing i with
  | zero => simp [freeTableFrom]
  | succ k ih =>
    intro p hp
    rcases mem_keep hp with ⟨rfl, -⟩ | hp
    · exact Nat.le_refl _
    · exact Nat.le_of_succ_le (ih p hp)

theorem freeTableFrom_canonical (n : Nat) {k i : Nat} (h : i + k ≤ lag) :
    Canonical resetWord lag (freeTableFrom n k i) := by
  induction k generalizing i with
  | zero => exact canonical_nil
  | succ k ih => exact (ih (by omega)).keep _ (by omega) fun p hp => freeTableFrom_bounds p hp

theorem freeTable_wf (n : Nat) : Memory.wf (freeTableFrom n lag 0) :=
  freeTableFrom_canonical n (Nat.le_of_eq (Nat.zero_add lag))

theorem reset_table_wf : State.reset.table.wf := canonical_nil

end Sys2Proof.Machine
end

