-- ==== Sys2Proof/Laws/State.lean ====
section
/-! SUPPORT. One lemma per field per update of `State`, so that no later proof unfolds an update. -/

namespace Sys2Proof.Machine

/-! ### `setStatus` -/
@[simp] theorem State.setStatus_table (s : State) (r : Nat) (st : ReqStatus) :
    (s.setStatus r st).table = s.table := rfl
@[simp] theorem State.setStatus_carry (s : State) (r : Nat) (st : ReqStatus) :
    (s.setStatus r st).carry = s.carry := rfl
@[simp] theorem State.setStatus_cursor (s : State) (r : Nat) (st : ReqStatus) :
    (s.setStatus r st).cursor = s.cursor := rfl
@[simp] theorem State.setStatus_poison (s : State) (r : Nat) (st : ReqStatus) :
    (s.setStatus r st).poison = s.poison := rfl
@[simp] theorem State.setStatus_phase (s : State) (r : Nat) (st : ReqStatus) :
    (s.setStatus r st).phase = s.phase := rfl
@[simp] theorem State.setStatus_owner (s : State) (r : Nat) (st : ReqStatus) :
    (s.setStatus r st).owner = s.owner := rfl
@[simp] theorem State.setStatus_requesters (s : State) (r : Nat) (st : ReqStatus) :
    (s.setStatus r st).requesters = store idleStatus s.requesters r st := rfl
@[simp] theorem State.setStatus_received (s : State) (r : Nat) (st : ReqStatus) :
    (s.setStatus r st).received = s.received := rfl
@[simp] theorem State.setStatus_inputs (s : State) (r : Nat) (st : ReqStatus) :
    (s.setStatus r st).inputs = s.inputs := rfl
@[simp] theorem State.setStatus_cfg (s : State) (r : Nat) (st : ReqStatus) :
    (s.setStatus r st).cfg = s.cfg := rfl
@[simp] theorem State.setStatus_freeIdx (s : State) (r : Nat) (st : ReqStatus) :
    (s.setStatus r st).freeIdx = s.freeIdx := rfl

/-! ### `withGen` -/
@[simp] theorem State.withGen_table (s : State) (g : Gen) :
    (s.withGen g).table = g.table := rfl
@[simp] theorem State.withGen_carry (s : State) (g : Gen) :
    (s.withGen g).carry = g.carry := rfl
@[simp] theorem State.withGen_cursor (s : State) (g : Gen) :
    (s.withGen g).cursor = g.cursor := rfl
@[simp] theorem State.withGen_poison (s : State) (g : Gen) :
    (s.withGen g).poison = s.poison := rfl
@[simp] theorem State.withGen_phase (s : State) (g : Gen) :
    (s.withGen g).phase = s.phase := rfl
@[simp] theorem State.withGen_owner (s : State) (g : Gen) :
    (s.withGen g).owner = s.owner := rfl
@[simp] theorem State.withGen_requesters (s : State) (g : Gen) :
    (s.withGen g).requesters = s.requesters := rfl
@[simp] theorem State.withGen_received (s : State) (g : Gen) :
    (s.withGen g).received = s.received := rfl
@[simp] theorem State.withGen_inputs (s : State) (g : Gen) :
    (s.withGen g).inputs = s.inputs := rfl
@[simp] theorem State.withGen_cfg (s : State) (g : Gen) :
    (s.withGen g).cfg = s.cfg := rfl
@[simp] theorem State.withGen_freeIdx (s : State) (g : Gen) :
    (s.withGen g).freeIdx = s.freeIdx := rfl

/-! ### `withInputs` -/
@[simp] theorem State.withInputs_table (s : State) (moves : List Move) :
    (s.withInputs moves).table = s.table := rfl
@[simp] theorem State.withInputs_carry (s : State) (moves : List Move) :
    (s.withInputs moves).carry = s.carry := rfl
@[simp] theorem State.withInputs_cursor (s : State) (moves : List Move) :
    (s.withInputs moves).cursor = s.cursor := rfl
@[simp] theorem State.withInputs_poison (s : State) (moves : List Move) :
    (s.withInputs moves).poison = s.poison := rfl
@[simp] theorem State.withInputs_phase (s : State) (moves : List Move) :
    (s.withInputs moves).phase = s.phase := rfl
@[simp] theorem State.withInputs_owner (s : State) (moves : List Move) :
    (s.withInputs moves).owner = s.owner := rfl
@[simp] theorem State.withInputs_requesters (s : State) (moves : List Move) :
    (s.withInputs moves).requesters = s.requesters := rfl
@[simp] theorem State.withInputs_received (s : State) (moves : List Move) :
    (s.withInputs moves).received = s.received := rfl
@[simp] theorem State.withInputs_inputs (s : State) (moves : List Move) :
    (s.withInputs moves).inputs = moves := rfl
@[simp] theorem State.withInputs_cfg (s : State) (moves : List Move) :
    (s.withInputs moves).cfg = s.cfg := rfl
@[simp] theorem State.withInputs_freeIdx (s : State) (moves : List Move) :
    (s.withInputs moves).freeIdx = s.freeIdx := rfl
@[simp] theorem State.withInputs_status (s : State) (moves : List Move) (r : Nat) :
    (s.withInputs moves).status r = s.status r := rfl
@[simp] theorem State.gen_withInputs (s : State) (moves : List Move) : (s.withInputs moves).gen = s.gen := rfl

/-! ### `grant` -/
@[simp] theorem State.grant_table (s : State) (r : Nat) (rq : Request) :
    (s.grant r rq).table = s.table := rfl
@[simp] theorem State.grant_carry (s : State) (r : Nat) (rq : Request) :
    (s.grant r rq).carry = s.carry := rfl
@[simp] theorem State.grant_cursor (s : State) (r : Nat) (rq : Request) :
    (s.grant r rq).cursor = s.cursor := rfl
@[simp] theorem State.grant_poison (s : State) (r : Nat) (rq : Request) :
    (s.grant r rq).poison = s.poison := rfl
@[simp] theorem State.grant_phase (s : State) (r : Nat) (rq : Request) :
    (s.grant r rq).phase = s.phase := rfl
@[simp] theorem State.grant_owner (s : State) (r : Nat) (rq : Request) :
    (s.grant r rq).owner = some r := rfl
@[simp] theorem State.grant_requesters (s : State) (r : Nat) (rq : Request) :
    (s.grant r rq).requesters = store idleStatus s.requesters r (.executing rq) := rfl
@[simp] theorem State.grant_received (s : State) (r : Nat) (rq : Request) :
    (s.grant r rq).received = s.received := rfl
@[simp] theorem State.grant_inputs (s : State) (r : Nat) (rq : Request) :
    (s.grant r rq).inputs = s.inputs := rfl
@[simp] theorem State.grant_cfg (s : State) (r : Nat) (rq : Request) :
    (s.grant r rq).cfg = s.cfg := rfl
@[simp] theorem State.grant_freeIdx (s : State) (r : Nat) (rq : Request) :
    (s.grant r rq).freeIdx = s.freeIdx := rfl

/-! ### `respond` -/
@[simp] theorem State.respond_table (s : State) (resp : Response) :
    (s.respond resp).table = s.table := by
  unfold State.respond; split <;> rfl
@[simp] theorem State.respond_carry (s : State) (resp : Response) :
    (s.respond resp).carry = s.carry := by
  unfold State.respond; split <;> rfl
@[simp] theorem State.respond_cursor (s : State) (resp : Response) :
    (s.respond resp).cursor = s.cursor := by
  unfold State.respond; split <;> rfl
@[simp] theorem State.respond_poison (s : State) (resp : Response) :
    (s.respond resp).poison = s.poison := by
  unfold State.respond; split <;> rfl
@[simp] theorem State.respond_phase (s : State) (resp : Response) :
    (s.respond resp).phase = s.phase := by
  unfold State.respond; split <;> rfl
@[simp] theorem State.respond_received (s : State) (resp : Response) :
    (s.respond resp).received = s.received := by
  unfold State.respond; split <;> rfl
@[simp] theorem State.respond_inputs (s : State) (resp : Response) :
    (s.respond resp).inputs = s.inputs := by
  unfold State.respond; split <;> rfl
@[simp] theorem State.respond_cfg (s : State) (resp : Response) :
    (s.respond resp).cfg = s.cfg := by
  unfold State.respond; split <;> rfl
@[simp] theorem State.respond_freeIdx (s : State) (resp : Response) :
    (s.respond resp).freeIdx = s.freeIdx := by
  unfold State.respond; split <;> rfl
@[simp] theorem State.respond_owner (s : State) (resp : Response) : (s.respond resp).owner = none := by
  unfold State.respond; split <;> simp_all

/-! ### `takeFatal` -/
@[simp] theorem State.takeFatal_table (s : State) :
    (s.takeFatal).table = s.table := by
  simp [State.takeFatal]
@[simp] theorem State.takeFatal_carry (s : State) :
    (s.takeFatal).carry = s.carry := by
  simp [State.takeFatal]
@[simp] theorem State.takeFatal_cursor (s : State) :
    (s.takeFatal).cursor = s.cursor := by
  simp [State.takeFatal]
@[simp] theorem State.takeFatal_poison (s : State) :
    (s.takeFatal).poison = s.poison := by
  simp [State.takeFatal]
@[simp] theorem State.takeFatal_phase (s : State) :
    (s.takeFatal).phase = s.phase := by
  simp [State.takeFatal]
@[simp] theorem State.takeFatal_owner (s : State) :
    (s.takeFatal).owner = none := by
  simp [State.takeFatal]
@[simp] theorem State.takeFatal_received (s : State) :
    (s.takeFatal).received = s.received := by
  simp [State.takeFatal]
@[simp] theorem State.takeFatal_inputs (s : State) :
    (s.takeFatal).inputs = s.inputs := by
  simp [State.takeFatal]
@[simp] theorem State.takeFatal_cfg (s : State) :
    (s.takeFatal).cfg = s.cfg := by
  simp [State.takeFatal]
@[simp] theorem State.takeFatal_freeIdx (s : State) :
    (s.takeFatal).freeIdx = s.freeIdx := by
  simp [State.takeFatal]
@[simp] theorem State.takeFatal_requesters (s : State) :
    s.takeFatal.requesters = (s.respond .fatal).requesters := rfl

/-! ### `finishWith` -/
@[simp] theorem State.finishWith_table (s : State) (resp : Response) :
    (s.finishWith resp).table = s.table := by
  simp [State.finishWith]
@[simp] theorem State.finishWith_carry (s : State) (resp : Response) :
    (s.finishWith resp).carry = s.carry := by
  simp [State.finishWith]
@[simp] theorem State.finishWith_cursor (s : State) (resp : Response) :
    (s.finishWith resp).cursor = s.cursor := by
  simp [State.finishWith]
@[simp] theorem State.finishWith_poison (s : State) (resp : Response) :
    (s.finishWith resp).poison = s.poison := by
  simp [State.finishWith]
@[simp] theorem State.finishWith_phase (s : State) (resp : Response) :
    (s.finishWith resp).phase = .idle := by
  simp [State.finishWith]
@[simp] theorem State.finishWith_owner (s : State) (resp : Response) :
    (s.finishWith resp).owner = none := by
  simp [State.finishWith]
@[simp] theorem State.finishWith_requesters (s : State) (resp : Response) :
    (s.finishWith resp).requesters = (s.respond resp).requesters := by
  simp [State.finishWith]
@[simp] theorem State.finishWith_received (s : State) (resp : Response) :
    (s.finishWith resp).received = s.received := by
  simp [State.finishWith]
@[simp] theorem State.finishWith_inputs (s : State) (resp : Response) :
    (s.finishWith resp).inputs = s.inputs := by
  simp [State.finishWith]
@[simp] theorem State.finishWith_cfg (s : State) (resp : Response) :
    (s.finishWith resp).cfg = s.cfg := by
  simp [State.finishWith]
@[simp] theorem State.finishWith_freeIdx (s : State) (resp : Response) :
    (s.finishWith resp).freeIdx = s.freeIdx := by
  simp [State.finishWith]

/-! ### `dropOwner` -/
@[simp] theorem State.dropOwner_table (s : State) :
    (s.dropOwner).table = s.table := by
  unfold State.dropOwner; split <;> rfl
@[simp] theorem State.dropOwner_carry (s : State) :
    (s.dropOwner).carry = s.carry := by
  unfold State.dropOwner; split <;> rfl
@[simp] theorem State.dropOwner_cursor (s : State) :
    (s.dropOwner).cursor = s.cursor := by
  unfold State.dropOwner; split <;> rfl
@[simp] theorem State.dropOwner_poison (s : State) :
    (s.dropOwner).poison = s.poison := by
  unfold State.dropOwner; split <;> rfl
@[simp] theorem State.dropOwner_phase (s : State) :
    (s.dropOwner).phase = s.phase := by
  unfold State.dropOwner; split <;> rfl
@[simp] theorem State.dropOwner_received (s : State) :
    (s.dropOwner).received = s.received := by
  unfold State.dropOwner; split <;> rfl
@[simp] theorem State.dropOwner_inputs (s : State) :
    (s.dropOwner).inputs = s.inputs := by
  unfold State.dropOwner; split <;> rfl
@[simp] theorem State.dropOwner_cfg (s : State) :
    (s.dropOwner).cfg = s.cfg := by
  unfold State.dropOwner; split <;> rfl
@[simp] theorem State.dropOwner_freeIdx (s : State) :
    (s.dropOwner).freeIdx = s.freeIdx := by
  unfold State.dropOwner; split <;> rfl
@[simp] theorem State.dropOwner_owner (s : State) : s.dropOwner.owner = none := by
  unfold State.dropOwner; split <;> simp_all

/-! ### `abortEvent` -/
@[simp] theorem State.abortEvent_table (s : State) :
    (s.abortEvent).table = freeTableFrom s.freeIdx lag 0 := by
  simp [State.abortEvent]
@[simp] theorem State.abortEvent_carry (s : State) :
    (s.abortEvent).carry = Config.freeCarry s.freeIdx := by
  simp [State.abortEvent]
@[simp] theorem State.abortEvent_cursor (s : State) :
    (s.abortEvent).cursor = Config.freeCursor s.freeIdx := by
  simp [State.abortEvent]
@[simp] theorem State.abortEvent_poison (s : State) :
    (s.abortEvent).poison = true := by
  simp [State.abortEvent]
@[simp] theorem State.abortEvent_phase (s : State) :
    (s.abortEvent).phase = .dead := by
  simp [State.abortEvent]
@[simp] theorem State.abortEvent_owner (s : State) :
    (s.abortEvent).owner = none := by
  simp [State.abortEvent]
@[simp] theorem State.abortEvent_requesters (s : State) :
    (s.abortEvent).requesters = s.dropOwner.requesters := by
  simp [State.abortEvent]
@[simp] theorem State.abortEvent_received (s : State) :
    (s.abortEvent).received = s.received := by
  simp [State.abortEvent]
@[simp] theorem State.abortEvent_inputs (s : State) :
    (s.abortEvent).inputs = s.inputs := by
  simp [State.abortEvent]
@[simp] theorem State.abortEvent_cfg (s : State) :
    (s.abortEvent).cfg = s.cfg := by
  simp [State.abortEvent]
@[simp] theorem State.abortEvent_freeIdx (s : State) :
    (s.abortEvent).freeIdx = s.freeIdx + 1 := by
  simp [State.abortEvent]

/-! ### `resetEvent` -/
@[simp] theorem State.resetEvent_table (s : State) :
    (s.resetEvent).table = [] := rfl
@[simp] theorem State.resetEvent_carry (s : State) :
    (s.resetEvent).carry = carry0 := rfl
@[simp] theorem State.resetEvent_cursor (s : State) :
    (s.resetEvent).cursor = cursor0 := rfl
@[simp] theorem State.resetEvent_poison (s : State) :
    (s.resetEvent).poison = false := rfl
@[simp] theorem State.resetEvent_phase (s : State) :
    (s.resetEvent).phase = .idle := rfl
@[simp] theorem State.resetEvent_owner (s : State) :
    (s.resetEvent).owner = none := rfl
@[simp] theorem State.resetEvent_requesters (s : State) :
    (s.resetEvent).requesters = [] := rfl
@[simp] theorem State.resetEvent_received (s : State) :
    (s.resetEvent).received = [] := rfl
@[simp] theorem State.resetEvent_inputs (s : State) :
    (s.resetEvent).inputs = s.inputs := rfl
@[simp] theorem State.resetEvent_cfg (s : State) :
    (s.resetEvent).cfg = s.cfg := rfl
@[simp] theorem State.resetEvent_freeIdx (s : State) :
    (s.resetEvent).freeIdx = s.freeIdx := rfl
@[simp] theorem State.gen_table (s : State) : s.gen.table = s.table := rfl
@[simp] theorem State.gen_carry (s : State) : s.gen.carry = s.carry := rfl
@[simp] theorem State.gen_cursor (s : State) : s.gen.cursor = s.cursor := rfl
@[simp] theorem State.gen_withGen (s : State) (g : Gen) : (s.withGen g).gen = g := rfl

@[simp] theorem State.gen_respond (s : State) (resp : Response) : (s.respond resp).gen = s.gen := by
  simp [State.gen]

@[simp] theorem State.gen_takeFatal (s : State) : s.takeFatal.gen = s.gen := by simp [State.gen]

@[simp] theorem State.gen_finishWith (s : State) (resp : Response) : (s.finishWith resp).gen = s.gen := by
  simp [State.gen]

@[simp] theorem State.gen_grant (s : State) (r : Nat) (rq : Request) : (s.grant r rq).gen = s.gen := rfl

@[simp] theorem State.gen_setStatus (s : State) (r : Nat) (st : ReqStatus) : (s.setStatus r st).gen = s.gen := rfl

/-! ### Statuses after an update -/

/-- Only the requester named is touched. -/
theorem State.status_setStatus_other (s : State) {r r' : Nat} (st : ReqStatus) (h : r' ≠ r) :
    (s.setStatus r st).status r' = s.status r' := lookup_store_other _ st h

theorem State.status_setStatus_same {s : State} (h : s.requesters.Pairwise (fun a b => a.1 < b.1))
    (r : Nat) (st : ReqStatus) : (s.setStatus r st).status r = st := lookup_store_same h r st

theorem State.status_grant_other (s : State) {r r' : Nat} (rq : Request) (h : r' ≠ r) :
    (s.grant r rq).status r' = s.status r' := lookup_store_other _ _ h

theorem State.status_grant_same {s : State} (h : s.requesters.Pairwise (fun a b => a.1 < b.1))
    (r : Nat) (rq : Request) : (s.grant r rq).status r = .executing rq := lookup_store_same h r _

/-- A response goes to the requester whose command is in execution and to no other (R65). -/
theorem State.status_respond_other (s : State) {r : Nat} (resp : Response) (h : s.owner ≠ some r) :
    (s.respond resp).status r = s.status r := by
  unfold State.respond
  split
  · rfl
  · next o ho => exact lookup_store_other _ _ (fun e => h (e ▸ ho))

theorem State.status_respond_owner {s : State} (hs : s.requesters.Pairwise (fun a b => a.1 < b.1))
    {r : Nat} (resp : Response) (h : s.owner = some r) :
    (s.respond resp).status r = (s.status r).answer resp := by
  unfold State.respond
  rw [h]
  exact lookup_store_same hs r _

theorem State.status_dropOwner_other (s : State) {r : Nat} (h : s.owner ≠ some r) :
    s.dropOwner.status r = s.status r := by
  unfold State.dropOwner
  split
  · rfl
  · next o ho => exact lookup_store_other _ _ (fun e => h (e ▸ ho))

theorem State.status_dropOwner_owner {s : State} (hs : s.requesters.Pairwise (fun a b => a.1 < b.1))
    {r : Nat} (h : s.owner = some r) : s.dropOwner.status r = (s.status r).lose := by
  unfold State.dropOwner
  rw [h]
  exact lookup_store_same hs r _

/-- Every change of a status keeps the canonical form of the requesters, if the requester is one. -/
theorem State.setStatus_canonical {s : State} {n : Nat} (h : Canonical idleStatus n s.requesters) {r : Nat}
    (st : ReqStatus) (hr : r < n) : Canonical idleStatus n (s.setStatus r st).requesters := h.store st hr

/-- A requester with something outstanding is one of the `N_REQ`. -/
theorem State.lt_of_status {s : State} {n : Nat} (h : Canonical idleStatus n s.requesters) {r : Nat}
    (hr : s.status r ≠ .idle) : r < n := h.lt_of_lookup hr

theorem State.respond_canonical {s : State} {n : Nat} (h : Canonical idleStatus n s.requesters)
    (resp : Response) (hr : ∀ r, s.owner = some r → r < n) :
    Canonical idleStatus n (s.respond resp).requesters := by
  unfold State.respond
  split
  · exact h
  · next o ho => exact h.store _ (hr o ho)

theorem State.dropOwner_canonical {s : State} {n : Nat} (h : Canonical idleStatus n s.requesters)
    (hr : ∀ r, s.owner = some r → r < n) : Canonical idleStatus n s.dropOwner.requesters := by
  unfold State.dropOwner
  split
  · exact h
  · next o ho => exact h.store _ (hr o ho)

end Sys2Proof.Machine
end

