-- ==== Sys2Proof/Laws/Exec.lean ====
section
/-! SUPPORT. What the two commands do, once: what a command answers, and what it leaves alone. -/

namespace Sys2Proof.Machine

/-- On a healthy engine a command is executed whole and answered. -/
theorem exec_healthy (i : Instr) {s : State} (h : s.poison = false) :
    exec i s = .next ((s.withGen (effectOf i s.gen).1).finishWith (effectOf i s.gen).2) := by
  cases i <;> simp [exec, execDraw, execSeed, h, effectOf]

/-- On a poisoned engine every command takes the exception. -/
theorem exec_poisoned (i : Instr) {s : State} (h : s.poison = true) : exec i s = .next s.takeFatal := by
  cases i <;> simp [exec, execDraw, execSeed, h]

/-- Everything a command can do. -/
theorem exec_cases {i : Instr} {s t : State} (h : exec i s = .next t) :
    (s.poison = true ∧ t = s.takeFatal) ∨
    (s.poison = false ∧
      t = (s.withGen (effectOf i s.gen).1).finishWith (effectOf i s.gen).2) := by
  cases hp : s.poison with
  | true =>
    rw [exec_poisoned i hp] at h
    exact .inl ⟨rfl, (Host.Outcome.next.inj h).symm⟩
  | false =>
    rw [exec_healthy i hp] at h
    exact .inr ⟨rfl, (Host.Outcome.next.inj h).symm⟩

/-- The index controller's increment on numbers (41_draw.md R103). -/
theorem nextCursor_toNat (c : Index) : (nextCursor c).toNat = (c.toNat + 1) % 4096 := by
  simp [nextCursor, BitVec.toNat_add]

@[simp] theorem Gen.draw_cursor (g : Gen) : g.draw.1.cursor = nextCursor g.cursor := rfl

@[simp] theorem Gen.draw_carry (g : Gen) :
    g.draw.1.carry = (drawWord (g.table.read (nextCursor g.cursor)) g.carry).1 := rfl

theorem Gen.draw_table (g : Gen) :
    g.draw.1.table = g.table.write (nextCursor g.cursor) g.draw.2 := rfl

theorem Gen.draw_word (g : Gen) :
    g.draw.2 = (drawWord (g.table.read (nextCursor g.cursor)) g.carry).2 := rfl

/-- The word a DRAW returns is the new entry at the new cursor (41_draw.md R101, R110). -/
theorem Gen.draw_read {g : Gen} (h : g.table.wf) : g.draw.1.table.read g.draw.1.cursor = g.draw.2 := by
  rw [Gen.draw_table, Gen.draw_cursor]
  exact Memory.read_write_same h _ _

/-- DRAW and SEED keep the table's canonical form. -/
theorem effectOf_wf (i : Instr) {g : Gen} (h : g.table.wf) : (effectOf i g).1.table.wf := by
  cases i with
  | draw => exact Memory.write_wf h _ _
  | seed s => exact seedTable_wf s

end Sys2Proof.Machine
end

