-- ==== Sys2Proof/Laws/PerInstr.lean ====
section
/-! SUPPORT. Statements made once for each command: its row of the opcode table. -/

namespace Sys2Proof.Laws.Opcode

/-- The row's `match` (30_encoding.md R62, spec/opcode_table.json). -/
def rowMatch : Instr → CommandWord
  | .draw => 0x000000000#33
  | .seed _ => 0x100000000#33

/-- The row's `mask` (R62). -/
def rowMask : Instr → CommandWord
  | .draw => 0x100000000#33
  | .seed _ => 0x100000000#33

/-- The command's word fits its own row and no other. -/
def Statement (i : Instr) : Prop :=
  i.wf = true ∧ encode i &&& rowMask i = rowMatch i ∧
    ∀ j : Instr, encode i &&& rowMask j = rowMatch j → rowMatch j = rowMatch i

theorem draw : Statement .draw := by
  refine ⟨rfl, by decide, fun j => ?_⟩
  cases j with
  | draw => intro; rfl
  | seed s => intro h; exact absurd h (by decide : ¬ (0#33 &&& 0x100000000#33 = 0x100000000#33))

/-- Bit 32 of a SEED word is set and the seed lies below it. -/
theorem encode_seed_bit (s : Word) (i : Nat) :
    (encode (.seed s)).getLsbD i = (decide (i = 32) || s.getLsbD i) := by
  have hs := s.isLt
  have e : (encode (.seed s)).toNat = s.toNat + 2 ^ 32 * 1 := by
    simp only [encode, BitVec.toNat_add, BitVec.toNat_setWidth, BitVec.toNat_ofNat]
    omega
  rw [BitVec.getLsbD, e, Nat.add_comm, Nat.testBit_two_pow_mul_add 1 hs]
  split
  · next h => simp [BitVec.getLsbD, Nat.ne_of_lt h]
  · next h =>
    rw [BitVec.getLsbD_of_ge s i (by omega), Bool.or_false]
    rcases Nat.lt_or_ge 32 i with h' | h'
    · rw [show i - 32 = i - 33 + 1 by omega, Nat.testBit_succ]
      simp; omega
    · have : i = 32 := by omega
      subst this; rfl

theorem encode_seed_and (s : Word) : encode (.seed s) &&& 0x100000000#33 = 0x100000000#33 := by
  apply BitVec.eq_of_getLsbD_eq
  intro i hi
  rw [BitVec.getLsbD_and, encode_seed_bit]
  by_cases h : i = 32
  · subst h; rfl
  · have : (0x100000000#33).getLsbD i = false := by
      have hi : i < 32 := by omega
      interval_cases i <;> rfl
    rw [this, Bool.and_false]

theorem seed (s : Word) : Statement (.seed s) := by
  refine ⟨rfl, encode_seed_and s, fun j => ?_⟩
  cases j with
  | draw =>
    intro h
    have := encode_seed_and s
    rw [show rowMask .draw = 0x100000000#33 from rfl, this] at h
    exact absurd h (by decide)
  | seed s' => intro; rfl

end Sys2Proof.Laws.Opcode
end

