-- ==== Sys2Proof/Laws/Step.lean ====
section
/-! SUPPORT. Everything a phase and a step can do, said once. -/

namespace Sys2Proof.Machine

/-- Inversion of `State.grantable`: what is granted is pending, and the engine is at rest. -/
theorem grantable_ok {s : State} {r : Nat} {rq : Request} :
    s.grantable r = .ok rq ↔ s.status r = .pending rq ∧ s.phase.atRest = true := by
  unfold State.grantable
  split
  · next rq' h =>
    split
    · next hr => simp only [Except.ok.injEq, h, ReqStatus.pending.injEq, hr, and_true]
    · next hr => simp [h, hr]
  · next h => simpa using fun e => absurd e (h rq)

/-- Everything a move can do. -/
theorem makeMove_cases {s t : State} {m : Move} (h : makeMove s m = .next t) :
    (∃ r rq, m = .submit r rq ∧ r < s.cfg.nReq ∧ s.status r = .idle ∧ t = s.setStatus r (.pending rq)) ∨
    (∃ r rq, m = .accept r ∧ s.status r = .pending rq ∧ s.phase.atRest = true ∧
      exec (decode rq.word) (s.grant r rq) = .next t) ∨
    (∃ r rq, m = .start r ∧ s.status r = .pending rq ∧ s.phase.atRest = true ∧
      t = s.startPhases r rq) ∨
    (m = .tick ∧ s.phase.atRest = false ∧ t = s.tick) ∨
    (∃ r rq resp, m = .consume r ∧ s.status r = .answered rq resp ∧
      t = { s.setStatus r .idle with
            received := s.received ++ [{ requester := r, request := rq, response := resp }] }) ∨
    (m = .reset ∧ t = s.resetEvent) ∨
    (m = .abort ∧ s.phase.atRest = false ∧ s.cfg.allowAbort = true ∧ t = s.abortEvent) := by
  cases m with
  | submit r rq =>
    simp only [makeMove, State.submit] at h
    split at h
    · next hc => exact .inl ⟨r, rq, rfl, hc.1, hc.2, (Host.Outcome.next.inj h).symm⟩
    · cases h
  | accept r =>
    simp only [makeMove] at h
    split at h
    · next rq hg => exact .inr (.inl ⟨r, rq, rfl, (grantable_ok.1 hg).1, (grantable_ok.1 hg).2, h⟩)
    · cases h
  | start r =>
    simp only [makeMove] at h
    split at h
    · next rq hg =>
      exact .inr (.inr (.inl ⟨r, rq, rfl, (grantable_ok.1 hg).1, (grantable_ok.1 hg).2,
        (Host.Outcome.next.inj h).symm⟩))
    · cases h
  | tick =>
    simp only [makeMove, State.tickMove] at h
    split at h
    · cases h
    · next hr =>
      exact .inr (.inr (.inr (.inl ⟨rfl, by simpa using hr, (Host.Outcome.next.inj h).symm⟩)))
  | consume r =>
    simp only [makeMove, State.consume] at h
    split at h
    · next rq resp hs =>
      exact .inr (.inr (.inr (.inr (.inl ⟨r, rq, resp, rfl, hs, (Host.Outcome.next.inj h).symm⟩))))
    · cases h
  | reset =>
    exact .inr (.inr (.inr (.inr (.inr (.inl ⟨rfl, (Host.Outcome.next.inj h).symm⟩)))))
  | abort =>
    simp only [makeMove, State.abortMove] at h
    split at h
    · cases h
    · next hr =>
      split at h
      · next ha =>
        exact .inr (.inr (.inr (.inr (.inr (.inr ⟨rfl, by simpa using hr, ha,
          (Host.Outcome.next.inj h).symm⟩)))))
      · cases h

/-- With no move to come a command in execution goes on by itself. -/
theorem step_tick {s : State} (hi : s.inputs = []) (h : s.phase.atRest = false) : step s = .next s.tick := by
  unfold step
  rw [hi]
  simp [h]

/-- Everything a step can do: at rest with no move to come it holds the state, otherwise it makes a move: the next
one, or, with none to come, a phase of the command in execution. -/
theorem step_cases {s t : State} (h : step s = .next t) :
    (s.inputs = [] ∧ t = s ∧ s.phase.atRest = true) ∨
    ∃ m rest, (s.inputs = m :: rest ∨ s.inputs = [] ∧ m = .tick ∧ rest = []) ∧
      makeMove (s.withInputs rest) m = .next t := by
  unfold step at h
  split at h
  · next hi =>
    split at h
    · next hr => exact .inl ⟨hi, (Host.Outcome.next.inj h).symm, hr⟩
    · next hr =>
      refine .inr ⟨.tick, [], .inr ⟨hi, rfl, rfl⟩, ?_⟩
      rw [show s.withInputs [] = s by unfold State.withInputs; rw [← hi]]
      simpa [makeMove, State.tickMove, hr] using h
  · next m rest hi => exact .inr ⟨m, rest, .inl hi, h⟩

/-- Every phase but the last of a command leaves the port, the parameters and the poison flag alone. -/
structure State.SamePort (s t : State) : Prop where
  poison : t.poison = s.poison
  owner : t.owner = s.owner
  requesters : t.requesters = s.requesters
  received : t.received = s.received
  inputs : t.inputs = s.inputs
  cfg : t.cfg = s.cfg
  freeIdx : t.freeIdx = s.freeIdx

/-- Everything a phase can do to the port: nothing, or (in the last phase of a command) answer it. -/
theorem tick_port (s : State) :
    State.SamePort s s.tick ∨
    (s.phase = .sResp ∧ s.tick = s.finishWith (.okWord (s.table.read s.cursor))) ∨
    (s.phase = .iResp ∧ s.tick = s.finishWith .ok) := by
  unfold State.tick
  split
  case h_10 h => exact .inr (.inl ⟨h, rfl⟩)
  case h_17 h => exact .inr (.inr ⟨h, rfl⟩)
  case h_15 => split <;> exact .inl ⟨rfl, rfl, rfl, rfl, rfl, rfl, rfl⟩
  all_goals exact .inl ⟨rfl, rfl, rfl, rfl, rfl, rfl, rfl⟩

/-- No phase touches the poison flag (10_state.md R28). -/
@[simp] theorem State.tick_poison (s : State) : s.tick.poison = s.poison := by
  rcases tick_port s with h | ⟨_, h⟩ | ⟨_, h⟩
  · exact h.poison
  · rw [h, State.finishWith_poison]
  · rw [h, State.finishWith_poison]

/-- Nor does the start of a command. -/
@[simp] theorem State.startPhases_poison (s : State) (r : Nat) (rq : Request) :
    (s.startPhases r rq).poison = s.poison := by
  unfold State.startPhases
  split <;> simp

/-- A phase does not look at the moves still to come. -/
theorem State.tick_withInputs (s : State) (moves : List Move) :
    (s.withInputs moves).tick = s.tick.withInputs moves := by
  unfold State.tick
  rw [State.withInputs_phase]
  split
  case h_15 => split <;> rfl
  case h_10 => unfold State.finishWith State.respond; rw [State.withInputs_owner]; cases s.owner <;> rfl
  case h_17 => unfold State.finishWith State.respond; rw [State.withInputs_owner]; cases s.owner <;> rfl
  all_goals rfl

/-- A phase keeps the table's canonical form. -/
theorem tick_table_wf {s : State} (h : s.table.wf) : s.tick.table.wf := by
  unfold State.tick
  split
  case h_15 =>
    split
    · exact Memory.write_wf h _ _
    · exact h
  all_goals first
    | exact h
    | exact Memory.write_wf h _ _
    | (simp only [State.finishWith_table]; exact h)

/-- Every phase is one fewer to go. -/
theorem tick_left {s : State} (h : s.phase.atRest = false) : s.phase.left = s.tick.phase.left + 1 := by
  unfold State.tick
  split <;> rename_i hp <;> rw [hp] at h ⊢
  case h_1 => simp [Phase.atRest] at h
  case h_2 => simp [Phase.atRest] at h
  case h_15 seedr i =>
    have := i.isLt
    split
    · next hi =>
      have hi : i.toNat ≤ 4095 := by simpa [lastFillIdx, BitVec.ule] using hi
      have h1 : (1 : BitVec 13).toNat = 1 := rfl
      simp only [Phase.left, BitVec.toNat_add, h1]
      omega
    · next hi =>
      have hi : 4095 < i.toNat := by simpa [lastFillIdx, BitVec.ule] using hi
      simp only [Phase.left]
      omega
  all_goals simp [Phase.left]

/-- A phase does not change the state in which the command ends. -/
theorem tick_complete {s : State} (h : s.phase.atRest = false) : s.tick.complete = s.complete := by
  unfold State.complete
  rw [tick_left h]
  rfl

/-- At rest there is nothing to complete. -/
theorem complete_of_atRest {s : State} (h : s.phase.atRest = true) : s.complete = s := by
  unfold State.complete
  cases hp : s.phase <;> simp_all [Phase.atRest, Phase.left, State.ticks]

/-- A run is over one step at a time. -/
theorem run_next {n : Nat} {s s' : State} (h : step s = .next s') :
    (Host.Core.run Sys2Proof.core (n + 1) s : Host.Outcome State Fault Refusal) =
      Host.Core.run Sys2Proof.core n s' := by
  simp only [Host.Core.run]
  rw [show Sys2Proof.core.step s = .next s' from h]

end Sys2Proof.Machine
end

