-- ==== Sys2Proof/Tests/Slice0.lean ====
section
/-! SUPPORT. Tests with results taken from the spec (95_test_vectors.md, 30_encoding.md), and for every
statement with hypotheses a witness that meets them. -/

namespace Sys2Proof.Machine

/-! ### Well-formed terms, and ill-formed ones that the checks refuse -/

theorem test_wf_accepts_the_largest_seed_literal : (ScriptOp.seed 4294967295).wf = true := by decide
theorem test_wf_refuses_a_seed_literal_out_of_range : (ScriptOp.seed 4294967296).wf = false := by decide
theorem test_wf_accepts_the_last_requester : (ScriptLine.command 1 .drawd).wf 2 = true := by decide
theorem test_wf_refuses_a_requester_out_of_range : (ScriptLine.command 2 .draw).wf 2 = false := by decide
theorem test_wf_refuses_a_line_with_a_bad_literal : (ScriptLine.command 0 (.seed 4294967296)).wf 1 = false := by
  decide
theorem test_config_refuses_no_requesters :
    ¬ Config.wf { nReq := 0, allowAbort := false, division := .platform } := by decide
theorem test_memory_refuses_an_index_out_of_range : ¬ Memory.wf [(4096, 1#32)] := by decide
theorem test_memory_refuses_a_listed_reset_word : ¬ Memory.wf [(1, 0x9e3779b9#32)] := by decide
theorem test_memory_refuses_falling_indices : ¬ Memory.wf [(2, 1#32), (1, 1#32)] := by decide

/-! ### Words written out from the encodings of 30_encoding.md R61, R62, R65, R66 -/

/-- DRAW is `0xxxxxxxxxxxxxxxxxxxxxxxxxxxxxxxx` (R62): op = 0, then 32 bits that do not matter. -/
theorem test_decode_draw : decode 0b0_0000_0000_0000_0000_0000_0000_0000_0000#33 = .draw := by decide
theorem test_decode_draw_with_argument_bits :
    decode 0b0_1010_0000_0000_0000_0000_0000_0000_0001#33 = .draw := by decide
/-- SEED is `1ssssssssssssssssssssssssssssssss` (R62), bit 0 of the word being bit 0 of the seed (R63). -/
theorem test_decode_seed :
    decode 0b1_1101_1110_1010_1101_1011_1110_1110_1111#33 = .seed 0xdeadbeef#32 := by decide
theorem test_decode_rejects_a_34_bit_number : decodeNat 0x200000000 = .error .widerThanCommandWord := by decide
theorem test_decode_table_word_rejects_bit_33 : decodeTableWord 40 0x200000000 = none := by decide
theorem test_encode_seed : encode (.seed 0xdeadbeef#32) = 0x1deadbeef#33 := by decide
theorem test_script_moves_of_a_line :
    scriptMoves 2 (.command 1 (.seed 5)) =
      .ok [.submit 1 (.command 0x100000005#33), .accept 1, .consume 1] := by decide

theorem test_assembly_refuses_a_requester_out_of_range :
    assembleLine 1 (.command 1 .draw) = .error .noSuchRequester := by decide

/-- The response words of 95_test_vectors.md P1, P2, P6. -/
theorem test_response_word_of_the_first_draw : Response.word (.okWord 4294604858#32) = 0x1fffa783a#34 := by decide
theorem test_response_word_of_fatal : Response.word .fatal = 0x200000000#34 := by decide

/-! ### The datapath: rows of 95_test_vectors.md section 3 -/

/-- V-D11: the smallest overflow. -/
theorem test_core_smallest_overflow : drawWord 0xffffffff#32 0x00000001#32 = (0x0000495e#32, 0xfffffffd#32) := by
  decide
/-- V-D16: one below an overflow, `x = 0xffffffff`. -/
theorem test_core_one_below_overflow :
    drawWord 0x12345678#32 0x642002b8#32 = (0x00000537#32, 0xffffffff#32) := by decide
/-- V-D9: `x` equals the carry, no correction. -/
theorem test_core_equality_is_no_overflow :
    drawWord 0x80000000#32 0x00000000#32 = (0x000024af#32, 0xffffdb4f#32) := by decide
/-- V-D20, draw 4194670: the first natural correction after reset. -/
theorem test_core_first_natural_correction :
    cmwcCore 0xf9672dfc#32 0x00000969#32 = (18298#32, 4294963347#32) := by decide
/-- notes/assumptions/17.md: `hi` can be 18782 with another word than 0xffffffff, against R109 (b), and then
`lo` is not `c - 18782`, against R109 (d). -/
theorem test_r109_b_counterexample :
    (hi32 (mac 0xfffffffe#32 0xffffffff#32)).toNat = 18782 ∧
      (lo32 (mac 0xfffffffe#32 0xffffffff#32)).toNat ≠ 0xffffffff - 18782 := by decide

/-! ### The two commands, one step each -/

/-- The state after the command word `w`, run as the first command after reset. -/
def afterFirst (w : Nat) : Option State :=
  match step (State.reset.withFetchWord 40 w) with
  | .next t => some t
  | _ => none

/-- V-X1, draw 1 (the source's first value). -/
theorem test_draw_after_reset :
    (afterFirst 0x000000000).map (fun t => (t.cursor, t.carry, t.table, t.status 0)) =
      some (0#12, 0#32, [(0, 0xfffa783a#32)],
        .answered (.command 0x000000000#33) (.okWord 4294604858#32)) := by decide

/-- 95_test_vectors.md P3, draw 2: the carry is used and left. -/
theorem test_draw_reads_at_the_incremented_cursor :
    ({ table := [(1, 0x7ce538a8#32)], carry := 0x00003fd1#32, cursor := 0#12 } : Gen).draw =
      ({ table := [(1, 0xc6ace6b2#32)], carry := 0x000023cb#32, cursor := 1#12 }, 3333220018#32) := by decide

/-- V-S2: P[6] of seed 1, with the carry and the cursor. -/
theorem test_seed_one :
    (afterFirst 0x100000001).map (fun t => (t.table.read 6, t.carry, t.cursor)) =
      some (0xa2598aca#32, 362436#32, 4095#12) := by decide

/-- V-S4: P[1], P[3] and P[6] of seed 0xdeadbeef. -/
theorem test_seed_deadbeef :
    (afterFirst 0x1deadbeef).map (fun t => (t.table.read 1, t.table.read 3, t.table.read 6)) =
      some (0x7ce538a8#32, 0xe2d24111#32, 0x852bcbd8#32) := by decide

/-- 20_memory.md R50: with no move to come a command in execution goes on (here S_FOLD to S_CORR), and the engine at
rest holds its state. -/
theorem test_step_without_a_move :
    (match step { State.reset with phase := .sFold 7#64, carry := 1#32 } with
      | .next t => t.phase
      | _ => .dead) = .sCorr 8#32 ∧
    (match step State.reset with
      | .next t => decide (t = State.reset)
      | _ => false) = true := by decide

/-! ### DRAWD: rows of 95_test_vectors.md section 5 -/

theorem test_drawd_v_f1 : divideByD (.ieee .nearestEven) 4294604858#32 = 0x3fefff4f075fff4f#64 := by decide
theorem test_drawd_v_f5 : divideByD (.ieee .nearestEven) 1#32 = 0x3df0000000100000#64 := by decide
theorem test_drawd_v_f6 : divideByD (.ieee .nearestEven) 4294967295#32 = 0x3ff0000000000000#64 := by decide
theorem test_drawd_v_f9 : divideByD (.ieee .nearestEven) 2147483647#32 = 0x3fdfffffffe00000#64 := by decide

/-! ### States for the witnesses -/

/-- A platform with two requesters that can cut a command short. -/
def cfgTwo : Config := { nReq := 2, allowAbort := true, division := .ieee .nearestEven }

/-- The reset state with two requesters, one of them with status `st`, and moves to come. -/
def withOne (r : Nat) (st : ReqStatus) (moves : List Move) : State :=
  { State.reset with cfg := cfgTwo, requesters := [(r, st)], inputs := moves }

/-- Requester `r`'s command `cw` in execution, in phase `p`. -/
def running (r : Nat) (cw : CommandWord) (p : Phase) (moves : List Move) : State :=
  { withOne r (.executing (.command cw)) moves with owner := some r, phase := p }

/-- A poisoned engine: requester 0's command was aborted, requester 1 has a DRAW pending. -/
def deadState (moves : List Move) : State :=
  { State.reset with
    cfg := cfgTwo
    requesters := [(0, .lost (.command 0)), (1, .pending (.command 0))]
    poison := true
    phase := .dead
    inputs := moves }

/-- A command in execution for requester 1 on a poisoned engine: the state in which `exec` refuses it. -/
def refusedState : State :=
  { deadState [] with requesters := [(1, .executing (.command 0))], owner := some 1 }

/-- A requester that has nothing outstanding. -/
theorem status_nil {s : State} (h : s.requesters = []) (r : Nat) : s.status r = .idle := by
  unfold State.status
  rw [h]
  rfl

/-- The statuses when one requester is listed. -/
theorem status_one {s : State} {k : Nat} {st : ReqStatus} (h : s.requesters = [(k, st)]) (r : Nat) :
    s.status r = if r = k then st else .idle := by
  unfold State.status
  rw [h]
  rfl

/-- The invariant of a healthy state at rest with one requester listed. -/
theorem inv_withOne {r : Nat} {st : ReqStatus} (moves : List Move) (hr : r < 2) (h1 : st ≠ .idle)
    (h2 : ∀ rq, st ≠ .executing rq)
    (h3 : ∀ rq resp, st = .answered rq resp → resp.fits (decode rq.word)) : (withOne r st moves).Inv where
  table := canonical_nil
  requesters := ⟨by simp [withOne], by simpa [withOne, cfgTwo, idleStatus] using ⟨Nat.le_of_lt_succ hr, h1⟩⟩
  poison := by simp [withOne, State.reset]
  owner := ⟨rfl, fun q rq => by rw [status_one rfl]; split <;> simp [h2]⟩
  responses := fun q rq resp => by
    rw [status_one rfl]
    split
    · exact h3 rq resp
    · simp

/-- The invariant of a state with a command in execution. -/
theorem inv_running {r : Nat} {cw : CommandWord} {p : Phase} (moves : List Move) (hr : r < 2)
    (hp : p.belongsTo (decode cw)) : (running r cw p moves).Inv where
  table := canonical_nil
  requesters := ⟨by simp [running, withOne], by
    simpa [running, withOne, cfgTwo, idleStatus] using Nat.le_of_lt_succ hr⟩
  poison := by
    cases p <;> simp_all [running, withOne, State.reset, Phase.belongsTo]
  owner := ⟨.command cw, by rw [status_one rfl, if_pos rfl], hp, fun q rq => by
    rw [status_one rfl]; split <;> simp [*]⟩
  responses := fun q rq resp => by rw [status_one rfl]; split <;> simp

theorem inv_reset (moves : List Move) : (State.reset.withInputs moves).Inv where
  table := canonical_nil
  requesters := canonical_nil
  poison := by simp [State.reset]
  owner := ⟨rfl, fun q rq => by rw [status_nil rfl]; simp⟩
  responses := fun q rq resp => by rw [status_nil rfl]; simp

theorem inv_deadState (moves : List Move) : (deadState moves).Inv where
  table := canonical_nil
  requesters := ⟨by simp [deadState], by simp [deadState, cfgTwo, idleStatus]⟩
  poison := by simp [deadState]
  owner := ⟨rfl, fun q rq => by
    unfold State.status; simp only [deadState, lookup, idleStatus]; split
    · simp
    · split <;> simp⟩
  responses := fun q rq resp => by
    unfold State.status; simp only [deadState, lookup, idleStatus]; split
    · simp
    · split <;> simp

/-- A word that the hypotheses about a DRAW are met by: a DRAW in execution for requester 0. -/
def drawRunning : State := running 0 0#33 .sAdv []

/-- A DRAW pending at requester 0, about to be accepted. -/
def drawPending : State := withOne 0 (.pending (.command 0#33)) [.accept 0]

theorem inv_drawPending : drawPending.Inv := inv_withOne _ (by decide) (by simp) (by simp) (by simp)

/-! ### Witnesses: hypotheses of the encoding statements -/

theorem witness_DecodeFollowsTheOpBit :
    (0x0ffffffff#33).getLsbD 32 = false ∧ (0x100000000#33).getLsbD 32 = true := by decide
theorem witness_DecodeAndEncodeAgree :
    Instr.draw.wf = true ∧ (Instr.seed 0xffffffff#32).wf = true ∧
      encode (.seed 0x0#32) = encode (.seed 0x0#32) := by decide
theorem witness_EveryWordIsLegalAndDrawIgnoresItsArgument :
    0x1ffffffff < 2 ^ 33 ∧ 2 ^ 33 ≤ 0x200000000 ∧ (0x0ffffffff#33).getLsbD 32 = false := by decide
theorem witness_ResponseWordBits :
    (0x300000000#34).getLsbD 33 = true ∧ (0x300000000#34).getLsbD 32 = true := by decide
theorem witness_ScriptOperationsAssemble : 4294967295 ≤ 4294967295 ∧ 4294967295 < 4294967296 := by decide

/-! ### Witnesses: hypotheses of the statements about SEED and DRAW -/

theorem witness_SeedInstallsTheSeededState :
    State.reset.poison = false ∧ (3 ≤ 3 ∧ 3 ≤ 4095) ∧ (3 ≤ 4095 ∧ 4095 ≤ 4095) := by decide
theorem witness_SeededTableHasPeriodSeven : (0 ≤ 4095 ∧ 4095 ≤ 4095) ∧ (0 < 6 ∧ 5 < 6) := by decide
theorem witness_SeedDependsOnItsOperandAlone :
    State.reset.poison = false ∧ drawRunning.poison = false ∧ (0#32 ≠ 1#32) ∧
      ∃ t u v, exec (.seed 0#32) drawRunning = .next t ∧ exec (.seed 0#32) t = .next u ∧
        exec (.seed 1#32) drawRunning = .next v :=
  ⟨rfl, rfl, by decide, _, _, _, exec_healthy _ rfl, exec_healthy _ rfl, exec_healthy _ rfl⟩
theorem witness_SeedRestartsTheSequence : drawRunning.poison = false := rfl
theorem witness_DrawComputesCore :
    drawRunning.poison = false ∧ drawRunning.table.wf ∧
      Canonical idleStatus drawRunning.cfg.nReq drawRunning.requesters ∧ drawRunning.owner = some 0 ∧
      drawRunning.status 0 = .executing (.command 0#33) := by decide
theorem witness_DrawFollowsItsNumberedSteps :
    drawRunning.poison = false ∧ drawRunning.table.wf ∧
      Canonical idleStatus drawRunning.cfg.nReq drawRunning.requesters ∧ drawRunning.owner = some 0 ∧
      drawRunning.status 0 = .executing (.command 0#33) := by decide
/-- Boundary values of each clause: V-D12, V-D7, V-D11. -/
theorem witness_DatapathBounds :
    ovf (fold (mac 0xffffffff#32 0x495d#32) (hi32 (mac 0xffffffff#32 0x495d#32)))
        (hi32 (mac 0xffffffff#32 0x495d#32)) = true ∧
      (hi32 (mac 0xffffffff#32 0xffffffff#32)).toNat = 18782 ∧
      (drawWord 0xffffffff#32 0x1#32).1.toNat = 18782 := by decide
/-- V-D11 and its neighbour V-D6, one below. -/
theorem witness_CorrectionFiresOnCarryOut :
    (lo32 (mac 0xffffffff#32 1#32)).toNat + (hi32 (mac 0xffffffff#32 1#32)).toNat ≥ 2 ^ 32 ∧
      ¬ (lo32 (mac 0xffffffff#32 0#32)).toNat + (hi32 (mac 0xffffffff#32 0#32)).toNat ≥ 2 ^ 32 := by decide
/-- V-D6. -/
theorem witness_EveryDrawSatisfiesTheRecurrence :
    drawRunning.poison = false ∧ drawRunning.table.wf ∧
      (hi32 (mac 0xffffffff#32 0#32)).toNat + (lo32 (mac 0xffffffff#32 0#32)).toNat = 2 ^ 32 - 1 ∧
      (drawX 0xffffffff#32 0#32).toNat = 2 ^ 32 - 1 := by decide
theorem witness_ComplementOfTheFoldedWord :
    (0xfffffffe#32).toNat ≤ 0xfffffffe ∧ (0xffffffff#32).toNat = 0xffffffff := by decide
theorem witness_LaggedRecurrence : 4095 < 4096 ∧ 4096 ≤ 4096 := by decide
theorem witness_CarryAndCursorAfterDraws : (0 = 0) ∧ 1 ≤ 1 := by decide

/-! ### Witnesses: frames, responses, the exception, the events -/

theorem witness_FrameOfDrawAndSeed :
    (∃ t, exec .draw drawRunning = .next t) ∧ (∃ t, exec (.seed 5#32) drawRunning = .next t) ∧
      drawRunning.owner ≠ some 1 ∧ (0#12 : Index) + 1 ≠ drawRunning.cursor + 1 ∧
      refusedState.poison = true ∧ ∃ t, exec .draw refusedState = .next t :=
  ⟨⟨_, exec_healthy _ rfl⟩, ⟨_, exec_healthy _ rfl⟩, by decide, by decide, rfl, _, exec_poisoned _ rfl⟩
theorem witness_EveryCommandIsAnsweredToItsOwner :
    (drawRunning.table.wf ∧ Canonical idleStatus drawRunning.cfg.nReq drawRunning.requesters ∧
      drawRunning.owner = some 0 ∧ drawRunning.status 0 = .executing (.command 0#33) ∧
      drawRunning.poison = false) ∧
    refusedState.table.wf ∧ Canonical idleStatus refusedState.cfg.nReq refusedState.requesters ∧
      refusedState.owner = some 1 ∧ refusedState.status 1 = .executing (.command 0#33) ∧
      refusedState.poison = true ∧ Instr.seed 5#32 ≠ .draw := by decide
theorem witness_PoisonedEngineRefusesEveryCommandWhole :
    refusedState.poison = true ∧ Canonical idleStatus refusedState.cfg.nReq refusedState.requesters ∧
      refusedState.owner = some 1 ∧ refusedState.status 1 = .executing (.command 0#33) := by decide
theorem witness_OnlyResetClearsPoison :
    (deadState [.reset]).poison = true ∧
      (∃ t, step (deadState [.reset]) = .next t ∧ t.poison = false) ∧
      ∃ t, exec (.seed 0#32) refusedState = .next t := ⟨rfl, ⟨_, rfl, rfl⟩, _, exec_poisoned _ rfl⟩
theorem witness_OnlyAbortSetsPoison :
    (running 0 0#33 .sAdv [.abort]).poison = false ∧
      ∃ t, step (running 0 0#33 .sAdv [.abort]) = .next t ∧ t.poison = true := ⟨rfl, _, rfl, rfl⟩
theorem witness_AbortPoisonsTheEngine :
    let s := running 0 0#33 .sAdv [.abort]
    s.Inv ∧ s.cfg.allowAbort = true ∧ s.owner = some 0 ∧ s.status 0 = .executing (.command 0#33) ∧
      s.inputs = [.abort] := ⟨inv_running _ (by decide) rfl, rfl, rfl, rfl, rfl⟩
theorem witness_AbortIsExcluded :
    (State.reset.withInputs [.abort]).inputs = [.abort] ∧
      (State.reset.withInputs [.abort]).phase.atRest = true ∧
      (let s := { running 0 0#33 .sResp [.abort] with cfg := resetConfig }
       s.inputs = [.abort] ∧ s.phase.atRest = false ∧ s.cfg.allowAbort = false) := by decide
theorem witness_AbortedRequesterIsNeverAnswered :
    (deadState [.accept 1]).Inv ∧ (deadState [.accept 1]).status 0 = .lost (.command 0) ∧
      (∃ t, step (deadState [.accept 1]) = .next t) ∧
      (deadState [.accept 1]).inputs.head? ≠ some .reset :=
  ⟨inv_deadState _, rfl, ⟨_, rfl⟩, by decide⟩
theorem witness_PoisonedContentsAreNeverRead :
    (deadState [.accept 1]).poison = true ∧ (deadState [.accept 1]).phase = .dead ∧
      (∃ t, step (deadState [.accept 1]) = .next t) ∧ (∃ t, step (deadState [.reset]) = .next t) ∧
      (deadState [.reset]).inputs.head? = some .reset := ⟨rfl, rfl, ⟨_, rfl⟩, ⟨_, rfl⟩, rfl⟩
theorem witness_ResetValues : (3 ≤ 3 ∧ 3 ≤ 4095) ∧ (3 ≤ 4095 ∧ 4095 ≤ 4095) := by decide
theorem witness_ResetEventInstallsTheResetState :
    (running 0 0#33 (.sFold 7) [.reset]).inputs = .reset :: [] ∧ State.reset.poison = false ∧
      ∃ v, exec (.seed 0#32) State.reset = .next v := ⟨rfl, rfl, _, exec_healthy _ rfl⟩

/-! ### Witnesses: the port and the step -/

theorem witness_StepRunsTheAcceptedCommand :
    drawPending.inputs = .accept 0 :: [] ∧ drawPending.status 0 = .pending (.command 0#33) ∧
      drawPending.phase.atRest = true := by decide
theorem witness_FetchWordIsRunNext : (State.reset.withInputs []).Inv := inv_reset []
theorem witness_AnyPendingCommandCanBeAccepted :
    drawPending.Inv ∧ drawPending.phase.atRest = true ∧ drawPending.status 0 = .pending (.command 0#33) ∧
      drawPending.inputs = .accept 0 :: [] := ⟨inv_drawPending, rfl, rfl, rfl⟩
theorem witness_SubmitNeedsNothingOutstanding :
    (let s := State.reset.withInputs [.submit 0 .drawd]
     s.Inv ∧ s.inputs = .submit 0 .drawd :: [] ∧ (0 < s.cfg.nReq ∧ s.status 0 = .idle)) ∧
    (let s := State.reset.withInputs [.submit 1 .drawd]
     s.Inv ∧ s.inputs = .submit 1 .drawd :: [] ∧ ¬ (1 < s.cfg.nReq ∧ s.status 1 = .idle)) :=
  ⟨⟨inv_reset _, rfl, by decide, rfl⟩, inv_reset _, rfl, by decide⟩
theorem witness_OnlyCommandsAndEventsChangeTheGenerator :
    ∃ t, step drawPending = .next t ∧ t.gen ≠ drawPending.gen := ⟨_, rfl, by decide⟩
theorem witness_ParametersNeverChange : ∃ t, step drawPending = .next t := ⟨_, rfl⟩
/-- V-S1d and V-S3d: the first DRAW after `SEED 0` and after `SEED 0xffffffff` returns the same word. -/
theorem witness_OnlyTheDrawnWordLeavesTheEngine :
    drawRunning.poison = false ∧
      drawRunning.gen.draw.2 =
        ({ table := [(0, 0xffffffff#32)], carry := 362436#32, cursor := 4095#12 } : Gen).draw.2 ∧
      refusedState.poison = true ∧ Instr.seed 5#32 ≠ .draw := by decide
/-- The states in which `exec` runs when the engine accepts a command at rest, healthy and poisoned. -/
theorem witness_RequestersAreInvisibleToTheAlgorithm :
    (let s := (withOne 0 (.pending (.command 0#33)) []).grant 0 (.command 0#33)
     let s' := (withOne 1 (.pending .drawd) [.reset]).grant 1 .drawd
     Canonical idleStatus s.cfg.nReq s.requesters ∧ Canonical idleStatus s'.cfg.nReq s'.requesters ∧
       s.gen = s'.gen ∧ s.poison = s'.poison ∧ s.owner = some 0 ∧ s'.owner = some 1 ∧
       s.status 0 = .executing (.command 0#33) ∧ s'.status 1 = .executing .drawd) ∧
    (let s := (deadState []).grant 1 (.command 0#33)
     Canonical idleStatus s.cfg.nReq s.requesters ∧ s.poison = true ∧ s.owner = some 1 ∧
       s.status 1 = .executing (.command 0#33)) := by decide
theorem witness_NoFatalResponseWithoutAbort :
    (State.reset.withInputs [.submit 0 .drawd]).Inv ∧
      (State.reset.withInputs [.submit 0 .drawd]).cfg.allowAbort = false ∧
      (State.reset.withInputs [.submit 0 .drawd]).NoFatal ∧
      ∃ t, step (State.reset.withInputs [.submit 0 .drawd]) = .next t :=
  ⟨inv_reset _, rfl, ⟨rfl, fun r rq => by rw [status_nil rfl]; simp, fun p hp => by cases hp⟩, _, rfl⟩

/-- `drawPending` after its one step. -/
def drawAnswered : State :=
  match step (drawPending.withInputs [.accept 0]) with
  | .next t => t
  | _ => drawPending

/-- The pending DRAW is accepted, and then no agent moves. -/
def fairMoves : Nat → Option Move
  | 0 => some (.accept 0)
  | _ + 1 => none

/-- The infinite execution of these moves. -/
def fairRun : Nat → State
  | 0 => drawPending
  | _ + 1 => drawAnswered

theorem witness_FairArbiterAcceptsPendingCommands :
    IsExecution fairMoves fairRun ∧ Fair fairRun ∧ (fairRun 0).isPending 0 ∧
      ∀ m, 0 ≤ m → fairMoves m ≠ some .reset := by
  refine ⟨fun n => ?_, fun r n => ⟨n + 1, by omega, ?_⟩, ⟨_, rfl⟩, fun m _ => ?_⟩
  · cases n <;> rfl
  · rintro ⟨rq, h⟩
    have e : (fairRun (n + 1)).requesters = [(0, .answered (.command 0#33) (.okWord 4294604858#32))] := by
      show drawAnswered.requesters = _
      decide
    rw [status_one e] at h
    split at h <;> cases h
  · cases m <;> simp [fairMoves]

/-- A DRAW in execution while no agent moves: the engine goes on by itself. -/
def quietRun : Nat → State
  | 0 => drawRunning
  | n + 1 => (quietRun n).tick

theorem quietRun_inputs (n : Nat) : (quietRun n).withInputs [] = quietRun n := by
  induction n with
  | zero => rfl
  | succ n ih => rw [quietRun, ← State.tick_withInputs, ih]

theorem witness_AcceptedCommandAlwaysCompletes :
    IsExecution (fun _ => none) quietRun ∧ (quietRun 0).Inv ∧ (quietRun 0).owner = some 0 ∧
      (quietRun 0).status 0 = .executing (.command 0#33) ∧
      ∀ m, 0 ≤ m → (none : Option Move) ≠ some .reset ∧ (none : Option Move) ≠ some .abort := by
  refine ⟨fun n => ?_, inv_running _ (by decide) rfl, rfl, rfl, fun m _ => by simp⟩
  show step ((quietRun n).withInputs []) = .next (quietRun n).tick
  rw [quietRun_inputs]
  have hi : (quietRun n).inputs = [] := congrArg State.inputs (quietRun_inputs n).symm
  cases hr : (quietRun n).phase.atRest with
  | false => exact step_tick hi hr
  | true =>
    unfold step
    rw [hi]
    cases hp : (quietRun n).phase <;> simp_all [Phase.atRest, State.tick]

/-! ### Witnesses: the sequencer, the invariants, DRAWD -/

/-- One state in each phase of DRAW; for the correction, one on each side of the comparison. -/
theorem witness_DrawPhasesInOrder :
    (decode (Request.command 0#33).word = .draw ∧ State.reset.poison = false ∧ (deadState []).poison = true) ∧
      (running 0 0 .sAdv []).phase = .sAdv ∧ (running 0 0 .sRead []).phase = .sRead ∧
      (running 0 0 (.sMac 7) []).phase = .sMac 7 ∧ (running 0 0 (.sCarry 7) []).phase = .sCarry 7 ∧
      (running 0 0 (.sFold 7) []).phase = .sFold 7 ∧
      ((running 0 0 (.sCorr 362435) []).phase = .sCorr 362435 ∧
        (362435 : Word) < (running 0 0 (.sCorr 362435) []).carry) ∧
      ((running 0 0 (.sCorr 362436) []).phase = .sCorr 362436 ∧
        ¬ (362436 : Word) < (running 0 0 (.sCorr 362436) []).carry) ∧
      (running 0 0 (.sWrite 7) []).phase = .sWrite 7 ∧ (running 0 0 .sResp []).phase = .sResp := by decide

/-- One state in each phase of SEED; for the fill, the first, the last and the terminal index. -/
theorem witness_SeedPhasesInOrder :
    (decode (Request.command 0x100000005#33).word = .seed 5#32 ∧ State.reset.poison = false ∧
        (deadState []).poison = true) ∧
      (running 0 0x100000005#33 (.iLatch 5) []).phase = .iLatch 5 ∧
      (running 0 0x100000005#33 (.iW0 5) []).phase = .iW0 5 ∧
      (running 0 0x100000005#33 (.iW1 5) []).phase = .iW1 5 ∧
      (running 0 0x100000005#33 (.iW2 5) []).phase = .iW2 5 ∧
      ((running 0 0x100000005#33 (.iFill 5 3) []).phase = .iFill 5 3 ∧ 3 ≤ (3#13).toNat ∧
        (3#13).toNat ≤ 4095) ∧
      (3 ≤ (4095#13).toNat ∧ (4095#13).toNat ≤ 4095) ∧ 4095 < (4096#13).toNat ∧
      (running 0 0x100000005#33 .iFin []).phase = .iFin ∧
      (running 0 0x100000005#33 .iResp []).phase = .iResp := by decide

theorem witness_PhasesRefineTheAtomicCommand :
    (drawPending.Inv ∧ drawPending.phase.atRest = true ∧ drawPending.status 0 = .pending (.command 0#33) ∧
      drawPending.poison = false) ∧
    (deadState []).Inv ∧ (deadState []).phase.atRest = true ∧
      (deadState []).status 1 = .pending (.command 0) ∧ (deadState []).poison = true :=
  ⟨⟨inv_drawPending, rfl, rfl, rfl⟩, inv_deadState _, rfl, rfl, rfl⟩
/-- The first phase of DRAW, and the last turn of SEED's fill. -/
theorem witness_CommandInExecutionCompletes :
    (drawRunning.Inv ∧ drawRunning.owner = some 0 ∧ drawRunning.status 0 = .executing (.command 0#33)) ∧
    (let s := running 1 0x100000005#33 (.iFill 5 4096) []
     s.Inv ∧ s.owner = some 1 ∧ s.status 1 = .executing (.command 0x100000005#33)) :=
  ⟨⟨inv_running _ (by decide) rfl, rfl, rfl⟩, inv_running _ (by decide) ⟨by decide, by decide, by decide⟩,
    rfl, rfl⟩
theorem witness_EveryStepKeepsTheInvariant : drawPending.Inv ∧ ∃ t, step drawPending = .next t :=
  ⟨inv_drawPending, _, rfl⟩

/-- A state whose generator state is `initialize(5)`. -/
def seededFive : State := (State.reset.withGen (Gen.seeded 5#32)).withInputs [.submit 0 .drawd]

theorem witness_EveryStepKeepsProvenance :
    seededFive.Inv ∧ seededFive.Provenance ∧ ∃ t, step seededFive = .next t := by
  refine ⟨⟨seedTable_wf 5#32, canonical_nil, by simp [seededFive, State.reset],
    ⟨rfl, fun q rq => by rw [status_nil rfl]; simp⟩, fun q rq resp => by rw [status_nil rfl]; simp⟩,
    fun _ => ⟨5#32, 0, ?_⟩, _, rfl⟩
  rw [complete_of_atRest (s := seededFive) rfl]
  rfl

theorem witness_DefaultDivisionIsNearest :
    binary64Finite 0x7fefffffffffffff#64 = true ∧ binary64Finite 0x7ff0000000000000#64 = false := by decide
theorem witness_DrawdIsOneDraw :
    (State.reset.withInputs []).Inv ∧ (State.reset.withInputs []).phase.atRest = true ∧
      (0x0ffffffff#33).getLsbD 32 = false ∧ 0 < (State.reset.withInputs []).cfg.nReq :=
  ⟨inv_reset _, rfl, by decide, by decide⟩
/-- A response of each kind: a word for DRAWD and for DRAW, `Ok`, FATAL. -/
theorem witness_ConsumedResponseIsTheResult :
    let a := withOne 0 (.answered .drawd (.okWord 7)) [.consume 0]
    let b := withOne 1 (.answered (.command 0#33) (.okWord 7)) [.consume 1]
    let c := withOne 0 (.answered (.command 0x100000005#33) .ok) [.consume 0]
    let d := withOne 0 (.answered .drawd .fatal) [.consume 0]
    (a.Inv ∧ a.inputs = .consume 0 :: [] ∧ a.status 0 = .answered .drawd (.okWord 7)) ∧
    (b.Inv ∧ b.inputs = .consume 1 :: [] ∧ b.status 1 = .answered (.command 0#33) (.okWord 7)) ∧
    (c.Inv ∧ c.inputs = .consume 0 :: [] ∧ c.status 0 = .answered (.command 0x100000005#33) .ok) ∧
    d.Inv ∧ d.inputs = .consume 0 :: [] ∧ d.status 0 = .answered .drawd .fatal := by
  refine ⟨⟨inv_withOne _ (by decide) (by simp) (by simp) ?_, rfl, rfl⟩,
    ⟨inv_withOne _ (by decide) (by simp) (by simp) ?_, rfl, rfl⟩,
    ⟨inv_withOne _ (by decide) (by simp) (by simp) ?_, rfl, rfl⟩,
    inv_withOne _ (by decide) (by simp) (by simp) ?_, rfl, rfl⟩
  · rintro rq resp h
    cases h
    exact (by decide : decode (Request.drawd).word = .draw)
  · rintro rq resp h
    cases h
    exact (by decide : decode (Request.command 0#33).word = .draw)
  · rintro rq resp h
    cases h
    exact ⟨5#32, by decide⟩
  · rintro rq resp h
    cases h
    trivial

/-! ### Witnesses: runs of a script -/

theorem witness_ScriptLinesAssemble :
    0 < 1 ∧ assemble (.seed 4294967295) = .ok (.command 0x1ffffffff#33) ∧ 1 ≤ 1 := by decide

/-- The end of the script `DRAW` of one requester (V-X1, draw 1). -/
def finishedDraw : State :=
  { State.reset with
    table := [(0, 0xfffa783a#32)]
    carry := 0
    cursor := 0
    received := [{ requester := 0, request := .command 0#33, response := .okWord 4294604858#32 }] }

theorem witness_OneRequesterRunsAreDetermined :
    (∀ line ∈ [ScriptLine.command 0 .draw], ∃ op, line = .command 0 op) ∧
      FinishedRun [.command 0 .draw] resetConfig finishedDraw := by
  refine ⟨by simp, by decide, ⟨State.reset, [.submit 0 (.command 0#33), .accept 0, .consume 0], 3, rfl,
    by decide, rfl⟩, fun r => ?_, status_nil rfl, rfl⟩
  by_cases e : r = 0
  · subst e; decide
  · simp [State.requestsServed, finishedDraw, requestsOf, assembleLine, assemble, State.reset, resetConfig,
      Ne.symm e]

/-- 95_test_vectors.md P5 (a), in the order r1, r0: who gets which word, and the end state. -/
def finishedRace : State :=
  { State.reset with
    cfg := cfgTwo
    table := [(0, 0xfffa783a#32), (1, 0x15eb5fb9#32)]
    carry := 11607
    cursor := 1
    received :=
      [{ requester := 0, request := .command 0#33, response := .okWord 367747001#32 },
       { requester := 1, request := .command 0#33, response := .okWord 4294604858#32 }] }

theorem witness_FinishedRunsAreSequentiallyConsistent :
    FinishedRun [.command 0 .draw, .command 1 .draw] cfgTwo finishedRace := by
  refine ⟨by decide, ⟨{ State.reset with cfg := cfgTwo }, [.submit 0 (.command 0#33),
    .submit 1 (.command 0#33), .accept 1, .accept 0, .consume 0, .consume 1], 6, rfl, by decide, rfl⟩,
    fun r => ?_, status_nil rfl, rfl⟩
  by_cases e : r = 0
  · subst e; decide
  · by_cases e' : r = 1
    · subst e'; decide
    · simp [State.requestsServed, finishedRace, requestsOf, assembleLine, assemble, cfgTwo, Ne.symm e, Ne.symm e']

end Sys2Proof.Machine
end

/-! ### Scope: the requesters' submissions and the parameters (00_scope.md R7, R16, R17) -/

namespace Sys2Proof.Machine

/-- With a move to come, a step makes it. -/
theorem step_cons {s : State} {m : Move} {rest : List Move} (h : s.inputs = m :: rest) :
    step s = makeMove (s.withInputs rest) m := by
  simp only [step, h]

/-- R16, R177 (a): one of the `N_REQ` requesters with nothing outstanding may submit. -/
theorem State.submit_of_idle {s : State} {r : Nat} (rq : Request) (h : r < s.cfg.nReq ∧ s.status r = .idle) :
    s.submit r rq = .next (s.setStatus r (.pending rq)) := if_pos h

/-- R16: nobody else may. -/
theorem State.submit_refused {s : State} {r : Nat} (rq : Request) (h : ¬ (r < s.cfg.nReq ∧ s.status r = .idle)) :
    s.submit r rq = .refused .cannotSubmit := if_neg h

/-- Settles O34: a submission is one write to the requester's own status, and its guard is that of the statement. -/
theorem submitNeedsNothingOutstanding : Obligations.SubmitNeedsNothingOutstanding := by
  intro s r rq rest hinv hin
  have hstep : step s = (s.withInputs rest).submit r rq := step_cons hin
  have hsorted : (s.withInputs rest).requesters.Pairwise (fun a b => a.1 < b.1) := hinv.requesters.1
  refine ⟨fun hmay => ?_, fun hnot => ?_⟩
  · exact ⟨(s.withInputs rest).setStatus r (.pending rq), hstep.trans (State.submit_of_idle rq hmay),
      State.status_setStatus_same hsorted r _, fun _ hne => State.status_setStatus_other _ _ hne, rfl, rfl, rfl⟩
  · exact hstep.trans (State.submit_refused rq hnot)

@[simp] theorem State.tick_cfg (s : State) : s.tick.cfg = s.cfg := by
  rcases tick_port s with h | ⟨_, h⟩ | ⟨_, h⟩
  · exact h.cfg
  · rw [h, State.finishWith_cfg]
  · rw [h, State.finishWith_cfg]

@[simp] theorem State.startPhases_cfg (s : State) (r : Nat) (rq : Request) : (s.startPhases r rq).cfg = s.cfg := by
  unfold State.startPhases
  split <;> simp

/-- No command changes the parameters, refused or executed. -/
theorem exec_keeps_cfg {i : Instr} {s t : State} (h : exec i s = .next t) : t.cfg = s.cfg := by
  rcases exec_cases h with ⟨_, rfl⟩ | ⟨_, rfl⟩
  · exact State.takeFatal_cfg s
  · simp

/-- No move changes the parameters, the environment's events included. -/
theorem makeMove_keeps_cfg {s t : State} {m : Move} (h : makeMove s m = .next t) : t.cfg = s.cfg := by
  rcases makeMove_cases h with
    ⟨r, rq, _, _, _, rfl⟩ | ⟨r, rq, _, _, _, hexec⟩ | ⟨r, rq, _, _, _, rfl⟩ | ⟨_, _, rfl⟩ |
    ⟨r, rq, resp, _, _, rfl⟩ | ⟨_, rfl⟩ | ⟨_, _, _, rfl⟩
  · exact State.setStatus_cfg s r _
  · exact (exec_keeps_cfg hexec).trans (State.grant_cfg s r rq)
  · exact State.startPhases_cfg s r rq
  · exact State.tick_cfg s
  · exact State.setStatus_cfg s r .idle
  · exact State.resetEvent_cfg s
  · exact State.abortEvent_cfg s

/-- Settles O36: a step holds the state or makes one move, and no move changes the parameters. -/
theorem parametersNeverChange : Obligations.ParametersNeverChange := by
  intro s t h
  rcases step_cases h with ⟨_, rfl, _⟩ | ⟨m, rest, _, hmove⟩
  · rfl
  · exact (makeMove_keeps_cfg hmove).trans (State.withInputs_cfg s rest)

end Sys2Proof.Machine

/-! ### State: the port between two steps (10_state.md R27, R33) -/

namespace Sys2Proof.Machine

/-- The port at rest: no requester's command is in execution (R27, R33), and every response is of a kind its
command can get (R65). -/
structure State.PortFree (s : State) : Prop where
  requesters : Canonical idleStatus s.cfg.nReq s.requesters
  owner : s.owner = none
  none_executing : ∀ r rq, s.status r ≠ .executing rq
  responses : ∀ r rq resp, s.status r = .answered rq resp → resp.fits (decode rq.word)

/-- The port with requester `o`'s request `rq` in execution, and no other (R47). -/
structure State.PortBusy (s : State) (o : Nat) (rq : Request) : Prop where
  requesters : Canonical idleStatus s.cfg.nReq s.requesters
  owner : s.owner = some o
  executing : s.status o = .executing rq
  only : ∀ r rq', s.status r = .executing rq' → r = o
  responses : ∀ r rq resp, s.status r = .answered rq resp → resp.fits (decode rq.word)

/-- The invariant has two cases: the engine is at rest, or one command is in execution in a phase of its own. -/
theorem State.Inv.cases {s : State} (h : s.Inv) :
    (s.PortFree ∧ s.phase.atRest = true) ∨
    ∃ o rq, s.PortBusy o rq ∧ s.phase.belongsTo (decode rq.word) := by
  have howner := h.owner
  split at howner
  · next hnone => exact .inl ⟨⟨h.requesters, hnone, howner.2, h.responses⟩, howner.1⟩
  · next o hsome =>
    obtain ⟨rq, hexec, hphase, honly⟩ := howner
    exact .inr ⟨o, rq, ⟨h.requesters, hsome, hexec, honly, h.responses⟩, hphase⟩

theorem State.PortFree.inv {s : State} (h : s.PortFree) (htable : s.table.wf)
    (hdead : s.phase = .dead ↔ s.poison = true) (hrest : s.phase.atRest = true) : s.Inv where
  table := htable
  requesters := h.requesters
  poison := hdead
  owner := by rw [h.owner]; exact ⟨hrest, h.none_executing⟩
  responses := h.responses

/-- A phase of a command is none of rest. -/
theorem Phase.belongsTo.not_atRest {p : Phase} {i : Instr} (h : p.belongsTo i) : p.atRest = false := by
  cases p with
  | idle => exact h.elim
  | dead => exact h.elim
  | _ => rfl

/-- A command is in execution on a healthy engine only. -/
theorem State.PortBusy.inv {s : State} {o : Nat} {rq : Request} (h : s.PortBusy o rq) (htable : s.table.wf)
    (hhealthy : s.poison = false) (hphase : s.phase.belongsTo (decode rq.word)) : s.Inv where
  table := htable
  requesters := h.requesters
  poison := by
    have hne : s.phase ≠ .dead := fun e => by rw [e] at hphase; exact hphase
    simp [hne, hhealthy]
  owner := by rw [h.owner]; exact ⟨rq, h.executing, hphase, h.only⟩
  responses := h.responses

theorem State.Inv.portFree {s : State} (h : s.Inv) (hrest : s.phase.atRest = true) : s.PortFree := by
  rcases h.cases with ⟨hport, -⟩ | ⟨o, rq, -, hphase⟩
  · exact hport
  · rw [hphase.not_atRest] at hrest; cases hrest

theorem State.Inv.portBusy {s : State} (h : s.Inv) (hrest : s.phase.atRest = false) :
    ∃ o rq, s.PortBusy o rq ∧ s.phase.belongsTo (decode rq.word) := by
  rcases h.cases with ⟨-, hrest'⟩ | hbusy
  · rw [hrest'] at hrest; cases hrest
  · exact hbusy

/-- With a command in execution the engine is healthy: a poisoned one is at rest, in DEAD. -/
theorem State.Inv.healthy {s : State} (h : s.Inv) (hrest : s.phase.atRest = false) : s.poison = false := by
  rw [← Bool.not_eq_true, ← h.poison]
  intro hdead
  rw [hdead] at hrest
  cases hrest

/-! ### State: what each operation does to the port -/

theorem State.status_setStatus {s : State} {n : Nat} (h : Canonical idleStatus n s.requesters) (r : Nat)
    (st : ReqStatus) (r' : Nat) : (s.setStatus r st).status r' = if r' = r then st else s.status r' := by
  split
  · next e => rw [e]; exact status_setStatus_same h.1 r st
  · next e => exact status_setStatus_other s st e

/-- A status that is neither in execution nor a response may replace another that is not in execution. -/
theorem State.Inv.setStatus {s : State} (h : s.Inv) {r : Nat} {st : ReqStatus} (hr : r < s.cfg.nReq)
    (hold : ∀ rq, s.status r ≠ .executing rq) (hnew : ∀ rq, st ≠ .executing rq)
    (hresp : ∀ rq resp, st ≠ .answered rq resp) : (s.setStatus r st).Inv := by
  have hrequesters := setStatus_canonical h.requesters st hr
  have hstatus := status_setStatus h.requesters r st
  have hresponses : ∀ r' rq resp, (s.setStatus r st).status r' = .answered rq resp →
      resp.fits (decode rq.word) := fun r' rq resp e => by
    rw [hstatus] at e
    split at e
    · exact absurd e (hresp rq resp)
    · exact h.responses r' rq resp e
  rcases h.cases with ⟨hport, hrest⟩ | ⟨o, rq, hport, hphase⟩
  · refine State.PortFree.inv ⟨hrequesters, hport.owner, fun r' rq => ?_, hresponses⟩ h.table h.poison hrest
    rw [hstatus]
    split
    · exact hnew rq
    · exact hport.none_executing r' rq
  · have ho : o ≠ r := fun e => hold rq (e ▸ hport.executing)
    refine State.PortBusy.inv (o := o) (rq := rq)
      ⟨hrequesters, hport.owner, ?_, fun r' rq' e => ?_, hresponses⟩ h.table
      (h.healthy hphase.not_atRest) hphase
    · rw [hstatus, if_neg ho]; exact hport.executing
    · rw [hstatus] at e
      split at e
      · exact absurd e (hnew rq')
      · exact hport.only r' rq' e

/-- Accepting a pending request of a port at rest. -/
theorem State.PortFree.grant {s : State} (h : s.PortFree) {r : Nat} {rq : Request}
    (hpending : s.status r = .pending rq) : (s.grant r rq).PortBusy r rq := by
  have hstatus : ∀ r', (s.grant r rq).status r' = if r' = r then .executing rq else s.status r' :=
    status_setStatus h.requesters r _
  have hr : r < s.cfg.nReq := lt_of_status h.requesters (by rw [hpending]; simp)
  refine ⟨setStatus_canonical h.requesters _ hr, rfl, by rw [hstatus, if_pos rfl], fun r' rq' e => ?_,
    fun r' rq' resp e => ?_⟩
  · rw [hstatus] at e
    split at e
    · assumption
    · exact absurd e (h.none_executing r' rq')
  · rw [hstatus] at e
    split at e
    · cases e
    · exact h.responses r' rq' resp e

/-- The end of a command in execution, with the status `st` left to its requester. -/
theorem State.PortBusy.ended {s t : State} {o : Nat} {rq : Request} {st : ReqStatus} (h : s.PortBusy o rq)
    (ht : t.requesters = (s.setStatus o st).requesters) (howner : t.owner = none) (hcfg : t.cfg = s.cfg)
    (hst : ∀ rq', st ≠ .executing rq')
    (hresp : ∀ rq' resp, st = .answered rq' resp → resp.fits (decode rq'.word)) : t.PortFree := by
  have ho : o < s.cfg.nReq := lt_of_status h.requesters (by rw [h.executing]; simp)
  have hstatus : ∀ r', t.status r' = if r' = o then st else s.status r' := fun r' => by
    rw [← status_setStatus h.requesters o st r', State.status, ht, State.status]
  refine ⟨?_, howner, fun r' rq' e => ?_, fun r' rq' resp e => ?_⟩
  · rw [hcfg, ht]; exact setStatus_canonical h.requesters st ho
  · rw [hstatus] at e
    split at e
    · exact hst rq' e
    · next hne => exact hne (h.only r' rq' e)
  · rw [hstatus] at e
    split at e
    · exact hresp rq' resp e
    · exact h.responses r' rq' resp e

/-- The response of a kind that the command can get ends its execution. -/
theorem State.PortBusy.respond {s : State} {o : Nat} {rq : Request} (h : s.PortBusy o rq) {resp : Response}
    (hfits : resp.fits (decode rq.word)) : (s.respond resp).PortFree := by
  refine h.ended (st := .answered rq resp) ?_ (respond_owner s resp) (respond_cfg s resp) (by simp) ?_
  · simp only [State.respond, h.owner, h.executing, ReqStatus.answer]
  · rintro rq' resp' e; cases e; exact hfits

theorem State.PortBusy.dropOwner {s : State} {o : Nat} {rq : Request} (h : s.PortBusy o rq) :
    s.dropOwner.PortFree := by
  refine h.ended (st := .lost rq) ?_ (dropOwner_owner s) (dropOwner_cfg s) (by simp) (by simp)
  simp only [State.dropOwner, h.owner, h.executing, ReqStatus.lose]

/-- A port reads nothing but its own fields. -/
theorem State.PortFree.congr {s t : State} (h : s.PortFree) (hr : t.requesters = s.requesters)
    (ho : t.owner = s.owner) (hc : t.cfg = s.cfg) : t.PortFree := by
  have hstatus : ∀ r, t.status r = s.status r := fun r => by rw [State.status, hr, State.status]
  exact ⟨by rw [hr, hc]; exact h.requesters, ho.trans h.owner,
    fun r rq => by rw [hstatus]; exact h.none_executing r rq,
    fun r rq resp => by rw [hstatus]; exact h.responses r rq resp⟩

theorem State.PortBusy.congr {s t : State} {o : Nat} {rq : Request} (h : s.PortBusy o rq)
    (hr : t.requesters = s.requesters) (ho : t.owner = s.owner) (hc : t.cfg = s.cfg) : t.PortBusy o rq := by
  have hstatus : ∀ r, t.status r = s.status r := fun r => by rw [State.status, hr, State.status]
  exact ⟨by rw [hr, hc]; exact h.requesters, ho.trans h.owner, (hstatus o).trans h.executing,
    fun r rq => by rw [hstatus]; exact h.only r rq,
    fun r rq resp => by rw [hstatus]; exact h.responses r rq resp⟩

/-! ### State: every move keeps the invariant -/

/-- The response of an executed command is of a kind it can get. -/
theorem effectOf_fits (i : Instr) (g : Gen) : (effectOf i g).2.fits i := by
  cases i with
  | draw => rfl
  | seed a => exact ⟨a, rfl⟩

theorem firstPhase_belongsTo (i : Instr) : (firstPhase i).belongsTo i := by
  cases i with
  | draw => rfl
  | seed a => rfl

/-- Every phase of a command but its last leads to another phase of it. -/
theorem tick_phase_belongsTo {s : State} {i : Instr} (h : s.phase.belongsTo i) (hS : s.phase ≠ .sResp)
    (hI : s.phase ≠ .iResp) : s.tick.phase.belongsTo i := by
  cases hp : s.phase <;> rw [hp] at h <;> simp only [State.tick, hp]
  case idle => exact h.elim
  case dead => exact h.elim
  case sResp => exact absurd hp hS
  case iResp => exact absurd hp hI
  case iW2 a => exact ⟨h, by decide, by decide⟩
  case iFill a k =>
    obtain ⟨hi, hlo, -⟩ := h
    split
    · next hk =>
      have hk : k.toNat ≤ 4095 := by simpa [lastFillIdx, BitVec.ule] using hk
      have hnext : (k + 1).toNat = k.toNat + 1 := BitVec.toNat_add_of_lt (by simp; omega)
      exact ⟨hi, by omega, by omega⟩
    · exact ⟨a, hi⟩
  all_goals exact h

/-- A phase of a command leads to another phase of it and leaves the port alone, or ends the command with a response
it can get. -/
theorem tick_of_belongsTo {s : State} {i : Instr} (h : s.phase.belongsTo i) :
    (State.SamePort s s.tick ∧ s.tick.phase.belongsTo i) ∨ ∃ resp, resp.fits i ∧ s.tick = s.finishWith resp := by
  by_cases hS : s.phase = .sResp
  · rw [hS] at h
    exact .inr ⟨.okWord (s.table.read s.cursor), h, by simp only [State.tick, hS]⟩
  by_cases hI : s.phase = .iResp
  · rw [hI] at h
    exact .inr ⟨.ok, h, by simp only [State.tick, hI]⟩
  rcases tick_port s with hport | ⟨e, -⟩ | ⟨e, -⟩
  · exact .inl ⟨hport, tick_phase_belongsTo h hS hI⟩
  · exact absurd e hS
  · exact absurd e hI

/-- The moves still to come are no part of the invariant. -/
theorem State.Inv.withInputs {s : State} (h : s.Inv) (moves : List Move) : (s.withInputs moves).Inv :=
  ⟨h.table, h.requesters, h.poison, h.owner, h.responses⟩

/-- Nor is what was received. -/
theorem State.Inv.withReceived {s : State} (h : s.Inv) (received : List Received) :
    { s with received := received }.Inv :=
  ⟨h.table, h.requesters, h.poison, h.owner, h.responses⟩

/-- Taking the exception with the command in execution on an engine at rest, which is what a refusal is. -/
theorem State.PortBusy.takeFatal_inv {s : State} {o : Nat} {rq : Request} (h : s.PortBusy o rq)
    (htable : s.table.wf) (hdead : s.phase = .dead ↔ s.poison = true) (hrest : s.phase.atRest = true) :
    s.takeFatal.Inv :=
  (h.respond (resp := .fatal) trivial).inv (by simpa using htable) (by simpa using hdead) (by simpa using hrest)

/-- A command that ends with a response it can get leaves the invariant. -/
theorem State.PortBusy.finishWith_inv {s : State} {o : Nat} {rq : Request} {resp : Response}
    (h : s.PortBusy o rq) (htable : s.table.wf) (hhealthy : s.poison = false)
    (hfits : resp.fits (decode rq.word)) : (s.finishWith resp).Inv :=
  ((h.respond hfits).congr (t := s.finishWith resp) rfl rfl rfl).inv (by simpa using htable)
    (by simp [hhealthy]) (by rw [finishWith_phase]; rfl)

theorem exec_grant_inv {s t : State} {r : Nat} {rq : Request} (h : s.Inv) (hrest : s.phase.atRest = true)
    (hpending : s.status r = .pending rq) (hexec : exec (decode rq.word) (s.grant r rq) = .next t) : t.Inv := by
  have hbusy := (h.portFree hrest).grant hpending
  rcases exec_cases hexec with ⟨-, rfl⟩ | ⟨hhealthy, rfl⟩
  · exact hbusy.takeFatal_inv h.table h.poison hrest
  · exact (hbusy.congr (t := (s.grant r rq).withGen _) rfl rfl rfl).finishWith_inv
      (effectOf_wf _ h.table) hhealthy (effectOf_fits _ _)

theorem startPhases_inv {s : State} {r : Nat} {rq : Request} (h : s.Inv) (hrest : s.phase.atRest = true)
    (hpending : s.status r = .pending rq) : (s.startPhases r rq).Inv := by
  have hbusy := (h.portFree hrest).grant hpending
  unfold State.startPhases
  split
  · exact hbusy.takeFatal_inv h.table h.poison hrest
  · next hhealthy =>
    exact (hbusy.congr (t := { s.grant r rq with phase := firstPhase (decode rq.word) }) rfl rfl rfl).inv
      h.table (by simpa using hhealthy) (firstPhase_belongsTo _)

theorem tick_inv {s : State} (h : s.Inv) (hrest : s.phase.atRest = false) : s.tick.Inv := by
  obtain ⟨o, rq, hbusy, hphase⟩ := h.portBusy hrest
  have hhealthy := h.healthy hrest
  rcases tick_of_belongsTo hphase with ⟨hport, hphase'⟩ | ⟨resp, hfits, htick⟩
  · exact (hbusy.congr hport.requesters hport.owner hport.cfg).inv (tick_table_wf h.table)
      (hport.poison.trans hhealthy) hphase'
  · rw [htick]; exact hbusy.finishWith_inv h.table hhealthy hfits

theorem resetEvent_inv (s : State) : s.resetEvent.Inv :=
  State.PortFree.inv ⟨canonical_nil, rfl, fun _ _ => nofun, fun _ _ _ => nofun⟩ canonical_nil (by simp) rfl

theorem abortEvent_inv {s : State} (h : s.Inv) (hrest : s.phase.atRest = false) : s.abortEvent.Inv := by
  obtain ⟨o, rq, hbusy, -⟩ := h.portBusy hrest
  exact (hbusy.dropOwner.congr (t := s.abortEvent) rfl rfl rfl).inv (freeTable_wf s.freeIdx) (by simp) rfl

theorem makeMove_inv {s t : State} {m : Move} (h : s.Inv) (hmove : makeMove s m = .next t) : t.Inv := by
  rcases makeMove_cases hmove with
    ⟨r, rq, _, hr, hidle, rfl⟩ | ⟨r, rq, _, hpending, hrest, hexec⟩ | ⟨r, rq, _, hpending, hrest, rfl⟩ |
    ⟨_, hrest, rfl⟩ | ⟨r, rq, resp, _, hanswered, rfl⟩ | ⟨_, rfl⟩ | ⟨_, hrest, _, rfl⟩
  · exact h.setStatus hr (by simp [hidle]) (by simp) (by simp)
  · exact exec_grant_inv h hrest hpending hexec
  · exact startPhases_inv h hrest hpending
  · exact tick_inv h hrest
  · have hr : r < s.cfg.nReq := State.lt_of_status h.requesters (by simp [hanswered])
    exact (h.setStatus (st := .idle) hr (by simp [hanswered]) (by simp) (by simp)).withReceived _
  · exact resetEvent_inv s
  · exact abortEvent_inv h hrest

/-- Settles O46: a step holds the state or makes one move, and every move keeps the invariant. -/
theorem everyStepKeepsTheInvariant : Obligations.EveryStepKeepsTheInvariant := by
  intro s t h hstep
  rcases step_cases hstep with ⟨_, rfl, _⟩ | ⟨m, rest, _, hmove⟩
  · exact h
  · exact makeMove_inv (h.withInputs rest) hmove

/-- Settles O45: the reset event reinstalls the reset state, in this case over itself. -/
theorem resetMeetsTheInvariant : Obligations.ResetMeetsTheInvariant := resetEvent_inv State.reset

end Sys2Proof.Machine

/-! ### State: the seeded table and the reset contents (10_state.md R30, 40_seed.md R83) -/

namespace Sys2Proof.Machine

/-- The fill step at every index it is made at: each entry from 3 on is mixed from the entries three and two
before it (R83). -/
def FilledWith (seed : Word) (f : Nat → Word) : Prop :=
  ∀ k, k + 3 < lag → f (k + 3) = mix (f k) (f (k + 1)) seed

/-- The first three entries and the fill step determine the table. -/
theorem FilledWith.ext {seed : Word} {f g : Nat → Word} (hf : FilledWith seed f) (hg : FilledWith seed g)
    (h0 : f 0 = g 0) (h1 : f 1 = g 1) (h2 : f 2 = g 2) : ∀ k, k < lag → f k = g k := by
  intro k
  induction k using Nat.strong_induction_on with
  | _ k ih =>
    intro hk
    match k with
    | 0 => exact h0
    | 1 => exact h1
    | 2 => exact h2
    | k + 3 => rw [hf k hk, hg k hk, ih k (by omega) (by omega), ih (k + 1) (by omega) (by omega)]

/-- What `seedFrom` lays out satisfies the fill step relative to its first index. -/
theorem seedFrom_fill (seed : Word) {n i k : Nat} (a b c : Word) (h : k + 3 < n) :
    lookup resetWord (seedFrom seed n i a b c) (i + (k + 3)) =
      mix (lookup resetWord (seedFrom seed n i a b c) (i + k))
        (lookup resetWord (seedFrom seed n i a b c) (i + (k + 1))) seed := by
  induction k generalizing n i a b c with
  | zero =>
    obtain ⟨m, rfl⟩ : ∃ m, n = m + 4 := ⟨n - 4, by omega⟩
    rw [seedFrom_rest _ _ _ _ _ _ (show i < i + (0 + 3) by omega),
      seedFrom_rest _ _ _ _ _ _ (show i + 1 < i + (0 + 3) by omega),
      seedFrom_rest _ _ _ _ _ _ (show i + 1 + 1 < i + (0 + 3) by omega),
      seedFrom_rest _ _ _ _ _ _ (show i < i + (0 + 1) by omega)]
    exact (seedFrom_first _ _ _ _ _ _).trans
      (congrArg₂ (mix · · seed) (seedFrom_first _ _ _ _ _ _).symm (seedFrom_first _ _ _ _ _ _).symm)
  | succ k ih =>
    obtain ⟨m, rfl⟩ : ∃ m, n = m + 1 := ⟨n - 1, by omega⟩
    have hshift := ih (n := m) (i := i + 1) b c (mix a b seed) (by omega)
    rw [seedFrom_rest _ _ _ _ _ _ (show i < i + (k + 1 + 3) by omega),
      seedFrom_rest _ _ _ _ _ _ (show i < i + (k + 1) by omega),
      seedFrom_rest _ _ _ _ _ _ (show i < i + (k + 1 + 1) by omega)]
    rwa [show i + 1 + (k + 3) = i + (k + 1 + 3) by omega, show i + 1 + k = i + (k + 1) by omega,
      show i + 1 + (k + 1) = i + (k + 1 + 1) by omega] at hshift

theorem seedTable_filled (seed : Word) : FilledWith seed (lookup resetWord (seedTable seed)) := fun k hk => by
  have hfill := seedFrom_fill seed (i := 0) seed (seed + phi) (seed + phi + phi) hk
  simp only [Nat.zero_add] at hfill
  exact hfill

theorem seedTable_zeroth (seed : Word) : lookup resetWord (seedTable seed) 0 = seed :=
  seedFrom_first seed 4095 0 _ _ _

theorem seedTable_first (seed : Word) : lookup resetWord (seedTable seed) 1 = seed + phi :=
  (seedFrom_rest seed 4095 0 _ _ _ (by decide)).trans (seedFrom_first seed 4094 1 _ _ _)

theorem seedTable_second (seed : Word) : lookup resetWord (seedTable seed) 2 = seed + phi + phi :=
  (seedFrom_rest seed 4095 0 _ _ _ (by decide)).trans
    ((seedFrom_rest seed 4094 1 _ _ _ (by decide)).trans (seedFrom_first seed 4093 2 _ _ _))

/-- The closed form of R30 satisfies the fill step of seed 0 at every index, since 7 is its period. -/
theorem resetWord_fill (k : Nat) : resetWord (k + 3) = mix (resetWord k) (resetWord (k + 1)) seed0 := by
  have hk : k % 7 < 7 := Nat.mod_lt k (by decide)
  simp only [resetWord, Nat.add_mod k]
  generalize k % 7 = r at hk
  interval_cases r <;> rfl

/-- R30: the reset contents are the table of seed 0. -/
theorem seedTable_seed0 : seedTable seed0 = [] := by
  refine Memory.ext (seedTable_wf seed0) canonical_nil fun i => ?_
  exact (seedTable_filled seed0).ext (g := resetWord) (fun k _ => resetWord_fill k)
    (seedTable_zeroth seed0) ((seedTable_first seed0).trans rfl) ((seedTable_second seed0).trans rfl)
    i.toNat i.isLt

/-- R30, R170: reset installs `initialize(0)`. -/
theorem State.gen_resetEvent (s : State) : s.resetEvent.gen = Gen.seeded seed0 := by
  rw [Gen.seeded, seedTable_seed0]
  rfl

/-- Before any write an index reads as its reset word. -/
theorem reset_read_ofNat {i : Nat} (h : i ≤ 4095) :
    State.reset.table.read (BitVec.ofNat 12 i) = resetWord i := by
  show resetWord (BitVec.ofNat 12 i).toNat = resetWord i
  rw [BitVec.toNat_ofNat, Nat.mod_eq_of_lt (by omega)]

/-- R30: the seven words that the reset contents repeat. -/
theorem resetWord_period (i : Nat) :
    [0x00000000#32, 0x9e3779b9#32, 0x3c6ef372#32, 0x00000000#32, 0x3c6ef372#32, 0xa2598acb#32,
      0xa2598acb#32][i % 7]? = some (resetWord i) := by
  have hi : i % 7 < 7 := Nat.mod_lt i (by decide)
  simp only [resetWord]
  generalize i % 7 = r at hi
  interval_cases r <;> rfl

/-- Settles O29: the reset contents are the closed form `resetWord`, which has the period and the recurrence. -/
theorem resetValues : Obligations.ResetValues := by
  refine ⟨rfl, rfl, rfl, fun i hlo hhi => ?_, fun i hi => ?_, rfl, rfl, rfl, rfl, rfl⟩
  · obtain ⟨k, rfl⟩ : ∃ k, i = k + 3 := ⟨i - 3, by omega⟩
    rw [reset_read_ofNat hhi, reset_read_ofNat (by omega), reset_read_ofNat (by omega), Nat.add_sub_cancel,
      show k + 3 - 2 = k + 1 by omega, resetWord_fill k]
    exact BitVec.xor_zero
  · rw [reset_read_ofNat hi]
    exact resetWord_period i

/-! ### State: the phases of a command compute what the command does (20_memory.md R47) -/

theorem State.finishWith_eq_of_idle (s : State) (resp : Response) :
    s.finishWith resp = { s with phase := .idle }.finishWith resp := by
  obtain ⟨_, _, _, _, _, owner, _, _, _, _, _⟩ := s
  cases owner <;> rfl

/-- The last phase of a command replaces the phase it stands in, so that phase does not matter. -/
theorem State.finishWith_congr {s t : State} (h : { s with phase := .idle } = { t with phase := .idle })
    (resp : Response) : s.finishWith resp = t.finishWith resp := by
  rw [finishWith_eq_of_idle s, h, ← finishWith_eq_of_idle t]

theorem fillWrite_toNat {i : BitVec 13} (h : i.toNat ≤ 4095) : (fillWrite i).toNat = i.toNat := by
  rw [fillWrite, BitVec.toNat_ofNat, Nat.mod_eq_of_lt (by omega)]

theorem fillRead3_toNat {i : BitVec 13} (h : i.toNat ≤ 4095) : (fillRead3 i).toNat = i.toNat - 3 := by
  rw [fillRead3, BitVec.toNat_ofNat, Nat.mod_eq_of_lt (by omega)]

theorem fillRead2_toNat {i : BitVec 13} (h : i.toNat ≤ 4095) : (fillRead2 i).toNat = i.toNat - 2 := by
  rw [fillRead2, BitVec.toNat_ofNat, Nat.mod_eq_of_lt (by omega)]

/-- The table is that of `initialize(seed)` below index `n`. -/
def SeededBelow (seed : Word) (n : Nat) (m : Memory) : Prop :=
  ∀ j, j < n → lookup resetWord m j = lookup resetWord (seedTable seed) j

/-- A fill step seeds one more entry. -/
theorem SeededBelow.fill {seed : Word} {m : Memory} {i : BitVec 13} (hwf : m.wf) (hlo : 3 ≤ i.toNat)
    (hhi : i.toNat ≤ 4095) (h : SeededBelow seed i.toNat m) :
    SeededBelow seed (i.toNat + 1)
      (m.write (fillWrite i) (mix (m.read (fillRead3 i)) (m.read (fillRead2 i)) seed)) := by
  intro j hj
  rw [Memory.write, fillWrite_toNat hhi]
  by_cases e : j = i.toNat
  · have hfill := seedTable_filled seed (i.toNat - 3) (by simp only [lag]; omega)
    rw [show i.toNat - 3 + 3 = i.toNat by omega, show i.toNat - 3 + 1 = i.toNat - 2 by omega] at hfill
    rw [e, lookup_store_same hwf.1, hfill, Memory.read, Memory.read, fillRead3_toNat hhi, fillRead2_toNat hhi,
      h _ (by omega), h _ (by omega)]
  · rw [lookup_store_other _ _ e]
    exact h j (by omega)

/-- The table with the three entries of I_W0, I_W1 and I_W2 written, as R88 writes them. -/
def Memory.writeFirstThree (m : Memory) (seed : Word) : Memory :=
  ((m.write 0 seed).write 1 (seed + phi)).write 2 (seed + 0x3c6ef372#32)

theorem Memory.writeFirstThree_wf {m : Memory} (hwf : m.wf) (seed : Word) : (m.writeFirstThree seed).wf :=
  write_wf (write_wf (write_wf hwf _ _) _ _) _ _

/-- They are the first three entries of the seeded table, `0x3c6ef372` being `PHI + PHI`. -/
theorem seededBelow_three {m : Memory} (hwf : m.wf) (seed : Word) :
    SeededBelow seed 3 (m.writeFirstThree seed) := by
  have hwf0 := Memory.write_wf hwf 0 seed
  have hwf1 := Memory.write_wf hwf0 1 (seed + phi)
  have h2 : seed + 0x3c6ef372#32 = seed + phi + phi := by
    rw [BitVec.add_assoc]
    exact congrArg (seed + ·) (by decide)
  intro j hj
  interval_cases j
  · rw [seedTable_zeroth]
    exact (lookup_store_other _ _ (by decide)).trans
      ((lookup_store_other _ _ (by decide)).trans (lookup_store_same hwf.1 _ _))
  · rw [seedTable_first]
    exact (lookup_store_other _ _ (by decide)).trans (lookup_store_same hwf0.1 _ _)
  · rw [seedTable_second, ← h2]
    exact lookup_store_same hwf1.1 _ _

theorem SeededBelow.eq_seedTable {seed : Word} {m : Memory} (h : SeededBelow seed lag m) (hwf : m.wf) :
    m = seedTable seed :=
  Memory.ext hwf (seedTable_wf seed) fun i => h i.toNat i.isLt

/-- The fill, from any index on, ends in the seeded state; by induction on the entries still to be written. -/
theorem complete_of_iFill {s : State} {seed : Word} {i : BitVec 13} (hp : s.phase = .iFill seed i)
    (hwf : s.table.wf) (hlo : 3 ≤ i.toNat) (hhi : i.toNat ≤ 4096) (hseeded : SeededBelow seed i.toNat s.table) :
    s.complete = (s.withGen (Gen.seeded seed)).finishWith .ok := by
  induction hk : 4096 - i.toNat generalizing s i with
  | zero =>
    have hi : i.toNat = 4096 := by omega
    have htable : s.table = seedTable seed := SeededBelow.eq_seedTable (by rwa [hi] at hseeded) hwf
    have htick : s.tick = { s with phase := .iFin } := by
      simp [State.tick, hp, lastFillIdx, BitVec.ule, hi]
    rw [← tick_complete (by rw [hp]; rfl), htick]
    refine State.finishWith_congr (s := { s with carry := carry0, cursor := cursor0, phase := .iResp }) ?_ .ok
    rw [State.withGen, Gen.seeded, ← htable]
  | succ k ih =>
    have hle : i.toNat ≤ 4095 := by omega
    have hnext : (i + 1).toNat = i.toNat + 1 := BitVec.toNat_add_of_lt (by simp; omega)
    have htick : s.tick = { s with
        table := s.table.write (fillWrite i)
          (mix (s.table.read (fillRead3 i)) (s.table.read (fillRead2 i)) seed)
        phase := .iFill seed (i + 1) } := by
      simp [State.tick, hp, lastFillIdx, BitVec.ule, hle]
    rw [← tick_complete (by rw [hp]; rfl), htick,
      ih (i := i + 1) rfl (Memory.write_wf hwf _ _) (by omega) (by omega)
        (by rw [hnext]; exact hseeded.fill hwf hlo hle) (by omega)]
    exact State.finishWith_congr (by rfl) .ok

/-- SEED phase by phase (R88) leaves what SEED whole leaves. -/
theorem complete_of_iLatch {s : State} {seed : Word} (hp : s.phase = .iLatch seed) (hwf : s.table.wf) :
    s.complete = (s.withGen (Gen.seeded seed)).finishWith .ok := by
  have hticks : s.tick.tick.tick.tick =
      { s with table := s.table.writeFirstThree seed, phase := .iFill seed 3 } := by
    simp [State.tick, hp, Memory.writeFirstThree]
  rw [← tick_complete (by rw [hp]; rfl), ← tick_complete (by simp [State.tick, hp, Phase.atRest]),
    ← tick_complete (by simp [State.tick, hp, Phase.atRest]),
    ← tick_complete (by simp [State.tick, hp, Phase.atRest]), hticks,
    complete_of_iFill (i := 3) rfl (Memory.writeFirstThree_wf hwf seed) (by decide) (by decide)
      (seededBelow_three hwf seed)]
  exact State.finishWith_congr (by rfl) .ok

/-- DRAW phase by phase (R111) leaves what DRAW whole leaves, and answers the same word. -/
theorem complete_of_sAdv {s : State} (hp : s.phase = .sAdv) (hwf : s.table.wf) :
    s.complete = (s.withGen s.gen.draw.1).finishWith (.okWord s.gen.draw.2) := by
  have hend : s.complete = { s.withGen s.gen.draw.1 with phase := .sResp }.finishWith
      (.okWord (s.gen.draw.1.table.read s.gen.draw.1.cursor)) := by
    simp [State.complete, hp, Phase.left, State.ticks, State.tick, State.withGen, Gen.draw, drawWord]
  rw [hend, Gen.draw_read hwf]
  exact State.finishWith_congr (by rfl) _

/-- R47, R88, R111: a command taken through its phases ends as the command executed whole. -/
theorem complete_of_firstPhase {i : Instr} {s : State} (hp : s.phase = firstPhase i) (hwf : s.table.wf) :
    s.complete = (s.withGen (effectOf i s.gen).1).finishWith (effectOf i s.gen).2 := by
  cases i with
  | draw => exact complete_of_sAdv hp hwf
  | seed a => exact complete_of_iLatch hp hwf

theorem State.startPhases_healthy {s : State} (r : Nat) (rq : Request) (h : s.poison = false) :
    s.startPhases r rq = { s.grant r rq with phase := firstPhase (decode rq.word) } := by
  simp [State.startPhases, h]

theorem State.startPhases_poisoned {s : State} (r : Nat) (rq : Request) (h : s.poison = true) :
    s.startPhases r rq = (s.grant r rq).takeFatal := by
  simp [State.startPhases, h]

/-- R47: a request started on a healthy engine ends as the request accepted and executed whole. -/
theorem complete_startPhases {s : State} (r : Nat) (rq : Request) (h : s.poison = false) (hwf : s.table.wf) :
    (s.startPhases r rq).complete = ((s.grant r rq).withGen (effectOf (decode rq.word) s.gen).1).finishWith
      (effectOf (decode rq.word) s.gen).2 := by
  have hstarted : (s.startPhases r rq).phase = firstPhase (decode rq.word) := by
    rw [State.startPhases_healthy r rq h]
  have hgen : (s.startPhases r rq).gen = s.gen := by rw [State.startPhases_healthy r rq h]; rfl
  have htable : (s.startPhases r rq).table = s.table := congrArg Gen.table hgen
  rw [complete_of_firstPhase hstarted (htable ▸ hwf), hgen, State.startPhases_healthy r rq h]
  exact State.finishWith_congr (by rfl) _

/-- What a phase does to the generator state and the phase depends on nothing else. -/
theorem tick_congr {s s' : State} (hgen : s.gen = s'.gen) (hphase : s.phase = s'.phase) :
    s.tick.gen = s'.tick.gen ∧ s.tick.phase = s'.tick.phase := by
  have htable : s.table = s'.table := congrArg Gen.table hgen
  have hcarry : s.carry = s'.carry := congrArg Gen.carry hgen
  have hcursor : s.cursor = s'.cursor := congrArg Gen.cursor hgen
  unfold State.tick
  rw [hphase]
  split
  case h_15 => split <;> simp [State.gen, htable, hcarry, hcursor]
  all_goals simp [State.gen, htable, hcarry, hcursor, hphase]

theorem ticks_gen_congr {s s' : State} (n : Nat) (hgen : s.gen = s'.gen) (hphase : s.phase = s'.phase) :
    (State.ticks n s).gen = (State.ticks n s').gen := by
  induction n generalizing s s' with
  | zero => exact hgen
  | succ n ih =>
    obtain ⟨hgen', hphase'⟩ := tick_congr hgen hphase
    exact ih hgen' hphase'

/-! ### State: provenance (10_state.md R29) -/

theorem State.Provenance.congr {s t : State} (h : s.Provenance) (hgen : t.gen = s.gen)
    (hphase : t.phase = s.phase) (hpoison : t.poison = s.poison) : t.Provenance := fun ht => by
  rw [State.complete, ticks_gen_congr _ hgen hphase, hphase]
  exact h (hpoison.symm.trans ht)

theorem State.Provenance.atRest {s : State} (h : s.Provenance) (hrest : s.phase.atRest = true)
    (hhealthy : s.poison = false) : s.gen.Genuine := by
  have hgenuine := h hhealthy
  rwa [complete_of_atRest hrest] at hgenuine

theorem Gen.genuine_seeded (seed : Word) : (Gen.seeded seed).Genuine := ⟨seed, 0, rfl⟩

/-- DRAW counts one more, SEED begins again. -/
theorem Gen.Genuine.effectOf {g : Gen} (h : g.Genuine) (i : Instr) : (effectOf i g).1.Genuine := by
  cases i with
  | draw =>
    obtain ⟨seed, n, rfl⟩ := h
    exact ⟨seed, n + 1, rfl⟩
  | seed a => exact Gen.genuine_seeded a

theorem exec_grant_provenance {s t : State} {r : Nat} {rq : Request} (h : s.Provenance)
    (hrest : s.phase.atRest = true) (hexec : exec (decode rq.word) (s.grant r rq) = .next t) : t.Provenance := by
  rcases exec_cases hexec with ⟨_, rfl⟩ | ⟨hhealthy, rfl⟩
  · exact h.congr (State.gen_takeFatal _) (State.takeFatal_phase _) (State.takeFatal_poison _)
  · intro _
    rw [complete_of_atRest (by rw [State.finishWith_phase]; rfl), State.gen_finishWith, State.gen_withGen]
    exact (h.atRest hrest hhealthy).effectOf _

theorem startPhases_provenance {s : State} {r : Nat} {rq : Request} (h : s.Provenance) (hwf : s.table.wf)
    (hrest : s.phase.atRest = true) : (s.startPhases r rq).Provenance := by
  cases hpoison : s.poison with
  | true =>
    rw [State.startPhases_poisoned r rq hpoison]
    exact h.congr (State.gen_takeFatal _) (State.takeFatal_phase _) (State.takeFatal_poison _)
  | false =>
    intro _
    rw [complete_startPhases r rq hpoison hwf, State.gen_finishWith, State.gen_withGen]
    exact (h.atRest hrest hpoison).effectOf _

theorem tick_provenance {s : State} (h : s.Provenance) (hrest : s.phase.atRest = false) :
    s.tick.Provenance := fun ht => by
  rw [tick_complete hrest]
  exact h ((State.tick_poison s).symm.trans ht)

theorem resetEvent_provenance (s : State) : s.resetEvent.Provenance := fun _ => by
  rw [complete_of_atRest rfl, State.gen_resetEvent]
  exact Gen.genuine_seeded seed0

theorem makeMove_provenance {s t : State} {m : Move} (h : s.Provenance) (hwf : s.table.wf)
    (hmove : makeMove s m = .next t) : t.Provenance := by
  rcases makeMove_cases hmove with
    ⟨r, rq, _, _, _, rfl⟩ | ⟨r, rq, _, _, hrest, hexec⟩ | ⟨r, rq, _, _, hrest, rfl⟩ | ⟨_, hrest, rfl⟩ |
    ⟨r, rq, resp, _, _, rfl⟩ | ⟨_, rfl⟩ | ⟨_, _, _, rfl⟩
  · exact h.congr rfl rfl rfl
  · exact exec_grant_provenance h hrest hexec
  · exact startPhases_provenance h hwf hrest
  · exact tick_provenance h hrest
  · exact h.congr rfl rfl rfl
  · exact resetEvent_provenance s
  · exact fun hhealthy => by cases (State.abortEvent_poison s).symm.trans hhealthy

/-- Settles O48: a command in execution ends in its effect on a genuine state, and no move changes that end. -/
theorem everyStepKeepsProvenance : Obligations.EveryStepKeepsProvenance := by
  intro s t hinv h hstep
  rcases step_cases hstep with ⟨_, rfl, _⟩ | ⟨m, rest, _, hmove⟩
  · exact h
  · exact makeMove_provenance (s := s.withInputs rest) (h.congr rfl rfl rfl) hinv.table hmove

/-- Settles O47: the state that the reset event installs. -/
theorem resetStateIsGenuine : Obligations.ResetStateIsGenuine := resetEvent_provenance State.reset

end Sys2Proof.Machine

/-! ### State: the carry and the cursor (10_state.md R29, 41_draw.md R109, R112) -/

namespace Sys2Proof.Machine

/-- R109: the high half of the multiply-accumulate result, and that at its largest value the correction cannot
fire. -/
theorem hi32_mac_bounds (q c : Word) :
    (hi32 (mac q c)).toNat ≤ 18782 ∧
      ((hi32 (mac q c)).toNat = 18782 → (mac q c).toNat % 2 ^ 32 + 18782 < 2 ^ 32) := by
  have hq := q.isLt
  have hc := c.isLt
  rw [hi32_toNat, mac_toNat]
  omega

/-- R112: the carry that a DRAW leaves is at most the multiplier, whatever the carry it found. -/
theorem drawWord_carry_le (q c : Word) : (drawWord q c).1.toNat ≤ 18782 := by
  obtain ⟨hle, hmax⟩ := hi32_mac_bounds q c
  have hfold := fold_toNat (mac q c) (hi32 (mac q c))
  show (correct (fold (mac q c) (hi32 (mac q c))) (hi32 (mac q c))).2.toNat ≤ 18782
  by_cases hovf : (fold (mac q c) (hi32 (mac q c))).toNat < (hi32 (mac q c)).toNat
  · rw [correct_of_ovf hovf]
    have hne : (hi32 (mac q c)).toNat ≠ 18782 := fun e => by have := hmax e; omega
    have hsucc : (hi32 (mac q c) + 1).toNat = (hi32 (mac q c)).toNat + 1 :=
      BitVec.toNat_add_of_lt (by simp; omega)
    show (hi32 (mac q c) + 1).toNat ≤ 18782
    omega
  · rw [correct_of_not_ovf hovf]
    exact hle

/-- R29 (e): each DRAW moves the cursor by one. -/
theorem Gen.after_cursor (seed : Word) (n : Nat) : (Gen.after seed n).cursor.toNat = (4095 + n) % 4096 := by
  induction n with
  | zero => rfl
  | succ n ih =>
    rw [Gen.after, Gen.draw_cursor, nextCursor_toNat, ih]
    omega

/-- R29 (d): from the first DRAW on. -/
theorem Gen.after_carry_le (seed : Word) (n : Nat) : (Gen.after seed (n + 1)).carry.toNat ≤ 18782 := by
  rw [Gen.after, Gen.draw_carry]
  exact drawWord_carry_le _ _

/-- Settles O19: the cursor by induction on the DRAWs, the carry by the bound that every single DRAW meets. -/
theorem carryAndCursorAfterDraws : Obligations.CarryAndCursorAfterDraws := by
  intro seed n
  refine ⟨Gen.after_cursor seed n, ?_, ?_⟩
  · rintro rfl
    rfl
  · intro hn
    obtain ⟨k, rfl⟩ : ∃ k, n = k + 1 := ⟨n - 1, by omega⟩
    exact Gen.after_carry_le seed k

/-! ### State: what a command leaves alone (10_state.md R31) -/

/-- The answer to a command goes to its owner alone. -/
theorem State.status_finishWith_other (s : State) {r : Nat} (resp : Response) (h : s.owner ≠ some r) :
    (s.finishWith resp).status r = s.status r := status_respond_other s resp h

/-- R102: the one entry a DRAW writes is that at the incremented cursor. -/
theorem Gen.draw_read_other (g : Gen) {j : Index} (h : j ≠ g.cursor + 1) :
    g.draw.1.table.read j = g.table.read j := by
  rw [Gen.draw_table]
  exact Memory.read_write_other _ _ h

/-- Settles O20: the command is refused, and nothing of the engine is written, or executed and answered. -/
theorem frameOfDrawAndSeed : Obligations.FrameOfDrawAndSeed := by
  intro i s t hexec
  rcases exec_cases hexec with ⟨_, rfl⟩ | ⟨hhealthy, rfl⟩
  · refine ⟨State.takeFatal_poison s, State.takeFatal_cfg s, State.takeFatal_received s, State.takeFatal_inputs s,
      State.takeFatal_freeIdx s, State.takeFatal_owner s, fun r hr => State.status_respond_other s _ hr,
      fun _ j _ => by rw [State.takeFatal_table], fun _ => ⟨State.gen_takeFatal s, State.takeFatal_phase s⟩⟩
  · refine ⟨by simp, by simp, by simp, by simp, by simp, by simp,
      fun r hr => State.status_finishWith_other _ _ hr, ?_, fun hpoison => ?_⟩
    · rintro rfl j hj
      rw [State.finishWith_table, State.withGen_table]
      exact Gen.draw_read_other s.gen hj
    · rw [hhealthy] at hpoison
      cases hpoison

/-! ### State: the poison flag (10_state.md R24) -/

theorem exec_keeps_poison {i : Instr} {s t : State} (h : exec i s = .next t) : t.poison = s.poison := by
  obtain ⟨hpoison, -⟩ := frameOfDrawAndSeed i s t h
  exact hpoison

/-- R24, R144, R145: the two events of the environment write the poison flag, and no other move does. -/
theorem makeMove_poison {s t : State} {m : Move} (h : makeMove s m = .next t) :
    t.poison = s.poison ∨ (m = .reset ∧ t = s.resetEvent) ∨
      (m = .abort ∧ s.phase.atRest = false ∧ s.cfg.allowAbort = true ∧ t = s.abortEvent) := by
  rcases makeMove_cases h with
    ⟨r, rq, _, _, _, rfl⟩ | ⟨r, rq, _, _, _, hexec⟩ | ⟨r, rq, _, _, _, rfl⟩ | ⟨_, _, rfl⟩ |
    ⟨r, rq, resp, _, _, rfl⟩ | hreset | habort
  · exact .inl (State.setStatus_poison s r _)
  · exact .inl ((exec_keeps_poison hexec).trans (State.grant_poison s r rq))
  · exact .inl (State.startPhases_poison s r rq)
  · exact .inl (State.tick_poison s)
  · exact .inl (State.setStatus_poison s r .idle)
  · exact .inr (.inl hreset)
  · exact .inr (.inr habort)

/-- Settles O24: of the two events that write the flag reset clears it. -/
theorem onlyAbortSetsPoison : Obligations.OnlyAbortSetsPoison := by
  intro s t hhealthy hstep hpoison
  rcases step_cases hstep with ⟨_, rfl, _⟩ | ⟨m, rest, hinputs, hmove⟩
  · rw [hhealthy] at hpoison
    cases hpoison
  · rcases makeMove_poison hmove with hsame | ⟨_, rfl⟩ | ⟨rfl, hrest, hallow, _⟩
    · rw [hsame, State.withInputs_poison, hhealthy] at hpoison
      cases hpoison
    · cases hpoison
    · rcases hinputs with hinputs | ⟨_, htick, _⟩
      · exact ⟨by rw [hinputs]; rfl, hallow, hrest⟩
      · cases htick

end Sys2Proof.Machine

/-! ### Memory: the step that accepts a command (20_memory.md R47, R51) -/

namespace Sys2Proof.Machine

/-- A pending request of an engine at rest is granted. -/
theorem State.grantable_pending {s : State} {r : Nat} {rq : Request} (hpending : s.status r = .pending rq)
    (hrest : s.phase.atRest = true) : s.grantable r = .ok rq :=
  grantable_ok.2 ⟨hpending, hrest⟩

theorem step_accept {s : State} {r : Nat} {rq : Request} {rest : List Move} (hin : s.inputs = .accept r :: rest)
    (hpending : s.status r = .pending rq) (hrest : s.phase.atRest = true) :
    step s = exec (decode rq.word) ((s.withInputs rest).grant r rq) := by
  rw [step_cons hin]
  simp only [makeMove, State.grantable_pending (s := s.withInputs rest) hpending hrest]

theorem step_start {s : State} {r : Nat} {rq : Request} {rest : List Move} (hin : s.inputs = .start r :: rest)
    (hpending : s.status r = .pending rq) (hrest : s.phase.atRest = true) :
    step s = .next ((s.withInputs rest).startPhases r rq) := by
  rw [step_cons hin]
  simp only [makeMove, State.grantable_pending (s := s.withInputs rest) hpending hrest]

/-- Settles O31: what is pending at rest is granted, and the move is then the command executed whole. -/
theorem stepRunsTheAcceptedCommand : Obligations.StepRunsTheAcceptedCommand :=
  fun _ _ _ _ hin hpending hrest => step_accept hin hpending hrest

theorem State.atRestNow_atRest (s : State) : s.atRestNow.phase.atRest = true := by
  unfold State.atRestNow
  split
  · assumption
  · cases s.poison <;> rfl

/-- Dropping a command in execution touches neither the generator state nor the poison flag. -/
theorem State.atRestNow_frame (s : State) :
    s.atRestNow.gen = s.gen ∧ s.atRestNow.poison = s.poison := by
  unfold State.atRestNow
  split
  · exact ⟨rfl, rfl⟩
  · simp [State.gen]

/-- A status with something outstanding is read back, whatever the order of the list. -/
theorem State.status_setStatus_ne_idle (s : State) (r : Nat) {st : ReqStatus} (h : st ≠ .idle) :
    (s.setStatus r st).status r = st := lookup_store_ne _ r h

theorem State.status_grant (s : State) (r : Nat) (rq : Request) :
    (s.grant r rq).status r = .executing rq :=
  lookup_store_ne s.requesters r (v := .executing rq) (by simp [idleStatus])

/-- The word placed at requester 0 is pending, the engine is at rest, and the next move accepts it. -/
theorem step_withNextCommand (s : State) (cw : CommandWord) :
    ∃ u, step (s.withNextCommand cw) = exec (decode cw) u ∧ u.gen = s.gen ∧ u.poison = s.poison ∧
      u.owner = some 0 ∧ u.inputs = s.inputs ∧ u.status 0 = .executing (.command cw) := by
  obtain ⟨hgen, hpoison⟩ := s.atRestNow_frame
  have hin : (s.withNextCommand cw).inputs = .accept 0 :: s.inputs := rfl
  have hpending : (s.withNextCommand cw).status 0 = .pending (.command cw) :=
    State.status_setStatus_ne_idle s.atRestNow 0 (by simp)
  have hstep := step_accept hin hpending s.atRestNow_atRest
  refine ⟨_, hstep, ?_, ?_, rfl, rfl, State.status_grant _ 0 _⟩
  · simpa [State.withNextCommand] using hgen
  · simpa [State.withNextCommand] using hpoison

/-- Settles O32: the host's word is the next command of requester 0. -/
theorem fetchWordIsRunNext : Obligations.FetchWordIsRunNext :=
  fun s _ _ _ => step_withNextCommand s _

end Sys2Proof.Machine

/-! ### Memory: a command taken through its phases (20_memory.md R47, R50) -/

namespace Sys2Proof.Machine

theorem State.ticks_withInputs (s : State) (moves : List Move) (n : Nat) :
    State.ticks n (s.withInputs moves) = (State.ticks n s).withInputs moves := by
  induction n generalizing s with
  | zero => rfl
  | succ n ih => rw [State.ticks, State.ticks, tick_withInputs, ih]

theorem State.complete_withInputs (s : State) (moves : List Move) :
    (s.withInputs moves).complete = s.complete.withInputs moves :=
  ticks_withInputs s moves s.phase.left

theorem Phase.left_of_atRest {p : Phase} (h : p.atRest = true) : p.left = 0 := by
  cases p with
  | idle => rfl
  | dead => rfl
  | _ => cases h

/-- A phase that is left to go is none of rest. -/
theorem Phase.not_atRest_of_left {p : Phase} (h : p.left ≠ 0) : p.atRest = false :=
  Bool.eq_false_iff.2 fun hrest => h (left_of_atRest hrest)

theorem run_zero (s : State) :
    (Host.Core.run Sys2Proof.core 0 s : Host.Outcome State Fault Refusal) = .next s := rfl

/-- A first step, and then the others. -/
theorem run_one_add {n : Nat} {s s' : State} (h : step s = .next s') :
    (Host.Core.run Sys2Proof.core (1 + n) s : Host.Outcome State Fault Refusal) =
      Host.Core.run Sys2Proof.core n s' := by
  rw [Nat.add_comm]
  exact run_next h

/-- As many moves `tick` as there are phases left complete the command; the moves behind them are still to come. -/
theorem run_phases_by_moves {s : State} {n : Nat} {rest : List Move} (hn : s.phase.left = n)
    (hin : s.inputs = List.replicate n .tick ++ rest) :
    (Host.Core.run Sys2Proof.core n s : Host.Outcome State Fault Refusal) =
      .next (s.complete.withInputs rest) := by
  induction n generalizing s with
  | zero =>
    have hend : s.complete.withInputs rest = s := by
      rw [State.complete, hn]
      exact congrArg s.withInputs hin.symm
    rw [run_zero, hend]
  | succ n ih =>
    have hbusy : s.phase.atRest = false := Phase.not_atRest_of_left (by omega)
    have hleft := tick_left hbusy
    have hstep : step s = .next (s.tick.withInputs (List.replicate n .tick ++ rest)) := by
      rw [step_cons (m := .tick) hin, ← State.tick_withInputs]
      simp [makeMove, State.tickMove, hbusy]
    rw [run_next hstep, ih (by rw [State.withInputs_phase]; omega) rfl, State.complete_withInputs,
      tick_complete hbusy]
    rfl

/-- Where no agent moves, the engine makes the phases left by itself. -/
theorem run_phases_unprompted {s : State} {n : Nat} (hn : s.phase.left = n) (hin : s.inputs = []) :
    (Host.Core.run Sys2Proof.core n s : Host.Outcome State Fault Refusal) = .next s.complete := by
  induction n generalizing s with
  | zero => rw [run_zero, State.complete, hn]; rfl
  | succ n ih =>
    have hbusy : s.phase.atRest = false := Phase.not_atRest_of_left (by omega)
    have hleft := tick_left hbusy
    have hin' : s.tick.inputs = [] := by
      rw [show s = s.withInputs [] by rw [← hin]; rfl, State.tick_withInputs, State.withInputs_inputs]
    rw [run_next (step_tick hin hbusy), ih (by omega) hin', tick_complete hbusy]

/-- R47: the command accepted by a healthy engine at rest and executed whole is the command started and completed. -/
theorem step_accept_healthy {s : State} {r : Nat} {rq : Request} {rest : List Move} (hwf : s.table.wf)
    (hin : s.inputs = .accept r :: rest) (hpending : s.status r = .pending rq) (hrest : s.phase.atRest = true)
    (hhealthy : s.poison = false) : step s = .next ((s.withInputs rest).startPhases r rq).complete := by
  rw [step_accept hin hpending hrest,
    exec_healthy _ (s := (s.withInputs rest).grant r rq) hhealthy,
    complete_startPhases (s := s.withInputs rest) r rq hhealthy hwf]
  rfl

/-- The start of a command does not look at the moves still to come. -/
theorem State.startPhases_withInputs (s : State) (r : Nat) (rq : Request) (moves : List Move)
    (hhealthy : s.poison = false) :
    (s.withInputs moves).startPhases r rq = (s.startPhases r rq).withInputs moves := by
  rw [startPhases_healthy r rq hhealthy, startPhases_healthy (s := s.withInputs moves) r rq hhealthy]
  rfl

@[simp] theorem State.startPhases_inputs (s : State) (r : Nat) (rq : Request) :
    (s.startPhases r rq).inputs = s.inputs := by
  unfold startPhases
  split <;> simp

/-- The phases left after the start are those of the command. -/
theorem State.startPhases_left (s : State) (r : Nat) (rq : Request) (hhealthy : s.poison = false) :
    (s.startPhases r rq).phase.left = (firstPhase (decode rq.word)).left := by
  rw [startPhases_healthy r rq hhealthy]

/-- R47: a command started and taken through its phases by the moves of the agents. -/
theorem run_start_by_moves {s : State} {r : Nat} {rq : Request} {rest : List Move}
    (hin : s.inputs = .start r :: (List.replicate (firstPhase (decode rq.word)).left .tick ++ rest))
    (hpending : s.status r = .pending rq) (hrest : s.phase.atRest = true) (hhealthy : s.poison = false) :
    (Host.Core.run Sys2Proof.core (1 + (firstPhase (decode rq.word)).left) s :
      Host.Outcome State Fault Refusal) = .next ((s.withInputs rest).startPhases r rq).complete := by
  refine (run_one_add (step_start hin hpending hrest)).trans ?_
  let s₁ := s.withInputs (List.replicate (firstPhase (decode rq.word)).left .tick ++ rest)
  have hrun := run_phases_by_moves (State.startPhases_left s₁ r rq hhealthy) (State.startPhases_inputs s₁ r rq)
  rwa [← State.complete_withInputs, ← State.startPhases_withInputs s₁ r rq rest hhealthy] at hrun

/-- R50: a command started while no agent moves after that. -/
theorem run_start_unprompted {s : State} {r : Nat} {rq : Request} (hin : s.inputs = [.start r])
    (hpending : s.status r = .pending rq) (hrest : s.phase.atRest = true) (hhealthy : s.poison = false) :
    (Host.Core.run Sys2Proof.core (1 + (firstPhase (decode rq.word)).left) s :
      Host.Outcome State Fault Refusal) = .next ((s.withInputs []).startPhases r rq).complete :=
  (run_one_add (step_start hin hpending hrest)).trans
    (run_phases_unprompted (State.startPhases_left (s.withInputs []) r rq hhealthy)
      (State.startPhases_inputs (s.withInputs []) r rq))

/-- R143: on a poisoned engine the command started is the command refused. -/
theorem step_start_poisoned {s : State} {r : Nat} {rq : Request} {rest : List Move}
    (hin : s.inputs = .start r :: rest) (hpending : s.status r = .pending rq) (hrest : s.phase.atRest = true)
    (hpoison : s.poison = true) : step s = .next ((s.withInputs rest).grant r rq).takeFatal := by
  rw [step_start hin hpending hrest, State.startPhases_poisoned (s := s.withInputs rest) r rq hpoison]

theorem State.PortBusy.status_respond {s : State} {o : Nat} {rq : Request} (h : s.PortBusy o rq) (resp : Response) :
    (s.respond resp).status o = .answered rq resp := by
  rw [status_respond_owner h.requesters.1 resp h.owner, h.executing]
  rfl

/-- Settles O43: the phases, by moves or unprompted, complete the command that the start puts in execution, and a
poisoned engine takes the exception in either form. -/
theorem phasesRefineTheAtomicCommand : Obligations.PhasesRefineTheAtomicCommand := by
  intro s r rq rest hinv hrest hpending n
  refine ⟨fun hhealthy => ⟨?_, ?_⟩, fun hpoison => ?_⟩
  · exact (run_start_by_moves (s := s.withInputs (.start r :: (List.replicate n .tick ++ rest)))
      rfl hpending hrest hhealthy).trans
      (step_accept_healthy (s := s.withInputs (.accept r :: rest)) hinv.table rfl hpending hrest hhealthy).symm
  · exact (run_start_unprompted (s := s.withInputs [.start r]) rfl hpending hrest hhealthy).trans
      (step_accept_healthy (s := s.withInputs [.accept r]) hinv.table rfl hpending hrest hhealthy).symm
  · have hbusy := ((hinv.withInputs rest).portFree hrest).grant (r := r) (rq := rq) hpending
    have hstart := step_start_poisoned (s := s.withInputs (.start r :: rest)) rfl hpending hrest hpoison
    refine ⟨hstart.trans ?_, _, hstart, hbusy.status_respond .fatal, State.gen_takeFatal _, ?_, ?_⟩
    · exact ((step_accept (s := s.withInputs (.accept r :: rest)) rfl hpending hrest).trans
        (exec_poisoned _ hpoison)).symm
    · rw [State.takeFatal_poison]
      exact hpoison
    · rw [State.takeFatal_phase]
      exact hinv.poison.2 hpoison

end Sys2Proof.Machine

/-! ### Memory: the command in execution and the answer it gets (20_memory.md R50) -/

namespace Sys2Proof.Machine

/-- The response that command `i` gets when `g` is the generator state it leaves (R85, R101). -/
def answerOf : Instr → Gen → Response
  | .draw, g => .okWord (g.table.read g.cursor)
  | .seed _, _ => .ok

theorem answerOf_ne_fatal (i : Instr) (g : Gen) : answerOf i g ≠ .fatal := by
  cases i <;> simp [answerOf]

/-- The answer of a command executed whole is read off the generator state it leaves. -/
theorem answerOf_effectOf (i : Instr) {g : Gen} (hwf : g.table.wf) :
    answerOf i (effectOf i g).1 = (effectOf i g).2 := by
  cases i with
  | draw => exact congrArg Response.okWord (Gen.draw_read hwf)
  | seed a => rfl

/-- With requester `o`'s request in execution, the port is busy with it, in a phase of its command. -/
theorem State.Inv.busy {s : State} {o : Nat} {rq : Request} (h : s.Inv) (howner : s.owner = some o)
    (hexec : s.status o = .executing rq) : s.PortBusy o rq ∧ s.phase.belongsTo (decode rq.word) := by
  rcases h.cases with ⟨hfree, -⟩ | ⟨o', rq', hbusy, hphase⟩
  · exact absurd hexec (hfree.none_executing o rq)
  · obtain rfl : o' = o := Option.some.inj (hbusy.owner.symm.trans howner)
    obtain rfl : rq' = rq := ReqStatus.executing.inj (hbusy.executing.symm.trans hexec)
    exact ⟨hbusy, hphase⟩

/-- A phase of a command leads to another phase of it and leaves the port alone, or answers it. -/
theorem tick_advances_or_answers {s : State} {i : Instr} (h : s.phase.belongsTo i) :
    (State.SamePort s s.tick ∧ s.tick.phase.belongsTo i) ∨ s.tick = s.finishWith (answerOf i s.gen) := by
  by_cases hS : s.phase = .sResp
  · rw [hS] at h
    obtain rfl : i = .draw := h
    exact .inr (by simp only [State.tick, hS]; rfl)
  by_cases hI : s.phase = .iResp
  · rw [hI] at h
    obtain ⟨a, rfl⟩ := h
    exact .inr (by simp only [State.tick, hI]; rfl)
  rcases tick_port s with hport | ⟨e, -⟩ | ⟨e, -⟩
  · exact .inl ⟨hport, tick_phase_belongsTo h hS hI⟩
  · exact absurd e hS
  · exact absurd e hI

theorem State.PortBusy.status_finishWith {s : State} {o : Nat} {rq : Request} (h : s.PortBusy o rq)
    (resp : Response) : (s.finishWith resp).status o = .answered rq resp := h.status_respond resp

/-- D15: SEED has the most phases. -/
theorem Phase.belongsTo.left_le {p : Phase} {i : Instr} (h : p.belongsTo i) : p.left ≤ 4100 := by
  cases p with
  | iFill a k =>
    obtain ⟨-, hlo, -⟩ := h
    simp only [Phase.left]
    omega
  | _ => simp [Phase.left]

/-- R50: the phases left of a command in execution answer it, with no error, and put the engine at rest; by
induction on their number. -/
theorem State.PortBusy.complete {s : State} {o : Nat} {rq : Request} (h : s.PortBusy o rq)
    (hphase : s.phase.belongsTo (decode rq.word)) :
    s.complete.phase = .idle ∧ s.complete.owner = none ∧ s.complete.poison = s.poison ∧
      ∃ resp, s.complete.status o = .answered rq resp ∧ resp ≠ .fatal := by
  induction hn : s.phase.left using Nat.strong_induction_on generalizing s with
  | _ n ih =>
    have hleft := tick_left hphase.not_atRest
    rw [← tick_complete hphase.not_atRest]
    rcases tick_advances_or_answers hphase with ⟨hport, hphase'⟩ | htick
    · rw [← hport.poison]
      exact ih _ (by omega) (h.congr hport.requesters hport.owner hport.cfg) hphase' rfl
    · have hidle : s.tick.phase = .idle := by rw [htick, finishWith_phase]
      rw [complete_of_atRest (by rw [hidle]; rfl), tick_poison]
      rw [htick]
      exact ⟨finishWith_phase s _, finishWith_owner s _, rfl, _, h.status_finishWith _, answerOf_ne_fatal _ _⟩

/-- Settles O44: the phases left are bounded by their list, and each is one fewer to the answer. -/
theorem commandInExecutionCompletes : Obligations.CommandInExecutionCompletes := by
  intro s o rq hinv howner hexec
  obtain ⟨hbusy, hphase⟩ := hinv.busy howner hexec
  obtain ⟨hidle, hnone, hpoison, hanswer⟩ := hbusy.complete hphase
  exact ⟨hphase.left_le, hidle, hnone, hpoison.trans (hinv.healthy hphase.not_atRest), hanswer⟩

/-! ### Memory: a command in execution in an endless execution (20_memory.md R50) -/

/-- How many moves a requester can make while another's command is in execution: consume its response, submit
again. -/
def ReqStatus.movesLeft : ReqStatus → Nat
  | .answered _ _ => 2
  | .idle => 1
  | _ => 0

/-- The steps that can still be made before the command in execution is answered. -/
def State.stepsLeft (s : State) : Nat :=
  s.phase.left + ∑ r ∈ Finset.range s.cfg.nReq, (s.status r).movesLeft

theorem ReqStatus.movesLeft_le (st : ReqStatus) : st.movesLeft ≤ 2 := by
  cases st <;> simp [movesLeft]

/-- D15: the phases of the longest command and two moves of each requester. -/
theorem State.stepsLeft_le {s : State} {i : Instr} (h : s.phase.belongsTo i) :
    s.stepsLeft ≤ 4100 + 2 * s.cfg.nReq := by
  have hmoves : ∑ r ∈ Finset.range s.cfg.nReq, (s.status r).movesLeft ≤ s.cfg.nReq * 2 := by
    simpa using Finset.sum_le_card_nsmul (Finset.range s.cfg.nReq) _ 2 fun r _ => (s.status r).movesLeft_le
  have hleft := h.left_le
  unfold State.stepsLeft
  omega

/-- A requester's move uses it up. -/
theorem State.stepsLeft_setStatus {s : State} (h : Canonical idleStatus s.cfg.nReq s.requesters) {r : Nat}
    {st : ReqStatus} (hr : r < s.cfg.nReq) (hlt : st.movesLeft < (s.status r).movesLeft) :
    (s.setStatus r st).stepsLeft < s.stepsLeft := by
  have hstatus := status_setStatus h r st
  refine Nat.add_lt_add_left (Finset.sum_lt_sum (fun r' _ => ?_) ⟨r, Finset.mem_range.2 hr, ?_⟩) _
  · rw [hstatus]
    split
    · next e => rw [e]; exact hlt.le
    · exact le_rfl
  · rwa [hstatus, if_pos rfl]

theorem State.status_congr {s t : State} (h : t.requesters = s.requesters) (r : Nat) : t.status r = s.status r := by
  rw [status, h, status]

/-- A phase that leaves the port alone is one fewer to go. -/
theorem State.SamePort.stepsLeft {s : State} (h : s.SamePort s.tick) (hbusy : s.phase.atRest = false) :
    s.tick.stepsLeft < s.stepsLeft := by
  have hleft := tick_left hbusy
  simp only [State.stepsLeft, h.cfg, State.status_congr h.requesters]
  omega

/-- What the agents can do while a command is in execution, with no reset and no abort: a phase that answers it, or
a move that leaves it in execution and one step fewer to its answer. -/
theorem busy_makeMove {s t : State} {o : Nat} {rq : Request} {m : Move} (hbusy : s.PortBusy o rq)
    (hphase : s.phase.belongsTo (decode rq.word)) (hreset : m ≠ .reset) (habort : m ≠ .abort)
    (hmove : makeMove s m = .next t) :
    (∃ resp, t.status o = .answered rq resp ∧ resp ≠ .fatal) ∨
      (t.owner = some o ∧ t.status o = .executing rq ∧ t.stepsLeft < s.stepsLeft) := by
  have hrest := hphase.not_atRest
  have hother : ∀ r st, s.status r ≠ .executing rq → (s.setStatus r st).status o = .executing rq := by
    intro r st hr
    have hne : o ≠ r := fun e => hr (by rw [← e]; exact hbusy.executing)
    rw [State.status_setStatus_other s st hne]
    exact hbusy.executing
  rcases makeMove_cases hmove with
    ⟨r, rq', _, hr, hidle, rfl⟩ | ⟨r, rq', _, _, hrest', _⟩ | ⟨r, rq', _, _, hrest', _⟩ | ⟨_, _, rfl⟩ |
    ⟨r, rq', resp, _, hanswered, rfl⟩ | ⟨rfl, _⟩ | ⟨rfl, _⟩
  · exact .inr ⟨hbusy.owner, hother r _ (by simp [hidle]),
      State.stepsLeft_setStatus hbusy.requesters hr (by simp [hidle, ReqStatus.movesLeft])⟩
  · rw [hrest] at hrest'; cases hrest'
  · rw [hrest] at hrest'; cases hrest'
  · rcases tick_advances_or_answers hphase with ⟨hport, -⟩ | htick
    · exact .inr ⟨hport.owner.trans hbusy.owner, (State.status_congr hport.requesters o).trans hbusy.executing,
        hport.stepsLeft hrest⟩
    · rw [htick]
      exact .inl ⟨_, hbusy.status_finishWith _, answerOf_ne_fatal _ _⟩
  · have hr : r < s.cfg.nReq := State.lt_of_status hbusy.requesters (by simp [hanswered])
    exact .inr ⟨hbusy.owner, hother r .idle (by simp [hanswered]),
      State.stepsLeft_setStatus hbusy.requesters hr (by simp [hanswered, ReqStatus.movesLeft])⟩
  · exact absurd rfl hreset
  · exact absurd rfl habort

/-- While a command is in execution every point of an endless execution makes a move: the agents' or, where they make
none, the engine's. -/
theorem IsExecution.move {μ : Nat → Option Move} {τ : Nat → State} (h : IsExecution μ τ) {n : Nat}
    (hbusy : (τ n).phase.atRest = false) :
    ∃ m rest, (μ n = some m ∨ m = .tick) ∧ makeMove ((τ n).withInputs rest) m = .next (τ (n + 1)) := by
  rcases step_cases (h n) with ⟨-, -, hrest⟩ | ⟨m, rest, hinputs, hmove⟩
  · rw [State.withInputs_phase, hbusy] at hrest
    cases hrest
  · refine ⟨m, rest, hinputs.imp (fun e => ?_) fun e => e.2.1, hmove⟩
    have hmem : m ∈ (μ n).toList := by
      rw [show (μ n).toList = m :: rest from e]
      exact List.mem_cons_self
    exact Option.mem_toList.1 hmem

/-- The steps left to the answer fall at every step; by induction on their number. -/
theorem IsExecution.answered {μ : Nat → Option Move} {τ : Nat → State} (h : IsExecution μ τ) {n o : Nat}
    {rq : Request} (hinv : (τ n).Inv) (howner : (τ n).owner = some o) (hexec : (τ n).status o = .executing rq)
    (hquiet : ∀ m, n ≤ m → μ m ≠ some .reset ∧ μ m ≠ some .abort) :
    ∃ m resp, n < m ∧ m ≤ n + (τ n).stepsLeft ∧ (τ m).status o = .answered rq resp ∧ resp ≠ .fatal := by
  induction hk : (τ n).stepsLeft using Nat.strong_induction_on generalizing n with
  | _ k ih =>
    obtain ⟨hbusy, hphase⟩ := hinv.busy howner hexec
    have hpos : 0 < (τ n).stepsLeft := by
      have hleft := tick_left hphase.not_atRest
      unfold State.stepsLeft
      omega
    obtain ⟨m, rest, hm, hmove⟩ := h.move hphase.not_atRest
    have hallowed : m ≠ .reset ∧ m ≠ .abort := by
      obtain ⟨hreset, habort⟩ := hquiet n le_rfl
      rcases hm with hm | rfl
      · rw [hm] at hreset habort
        exact ⟨fun e => hreset (congrArg some e), fun e => habort (congrArg some e)⟩
      · simp
    rcases busy_makeMove (s := (τ n).withInputs rest) (hbusy.congr rfl rfl rfl) hphase hallowed.1 hallowed.2 hmove
      with ⟨resp, hanswer⟩ | ⟨howner', hexec', hlt⟩
    · exact ⟨n + 1, resp, by omega, by omega, hanswer⟩
    · have hlt : (τ (n + 1)).stepsLeft < k := hk ▸ hlt
      obtain ⟨m', resp, hn, hm', hanswer⟩ := ih _ hlt (makeMove_inv (hinv.withInputs rest) hmove) howner' hexec'
        (fun j hj => hquiet j (by omega)) rfl
      exact ⟨m', resp, by omega, by omega, hanswer⟩

/-- Settles O55: at most the phases and the requesters' moves are left to the answer. -/
theorem acceptedCommandAlwaysCompletes : Obligations.AcceptedCommandAlwaysCompletes := by
  intro μ τ hexecution n o rq hinv howner hexec hquiet
  obtain ⟨m, resp, hn, hm, hanswer⟩ := hexecution.answered hinv howner hexec hquiet
  have hle := State.stepsLeft_le (hinv.busy howner hexec).2
  exact ⟨m, resp, hn, by omega, hanswer⟩

end Sys2Proof.Machine

/-! ### Memory: the requests served, in one order (20_memory.md R47, R48) -/

namespace Sys2Proof.Machine

/-- A property that every step keeps holds at the end of a run of which it held at the start. -/
theorem run_induction {P : State → Prop} (hkeep : ∀ s t, P s → step s = .next t → P t) {n : Nat} {s t : State}
    (hs : P s) (hrun : (Host.Core.run Sys2Proof.core n s : Host.Outcome State Fault Refusal) = .next t) : P t := by
  induction n generalizing s with
  | zero => exact Host.Outcome.next.inj hrun ▸ hs
  | succ n ih =>
    cases hstep : step s with
    | next s' => exact ih (hkeep s s' hs hstep) ((run_next hstep).symm.trans hrun)
    | fault r => cases r
    | refused r =>
      simp only [Host.Core.run, show Sys2Proof.core.step s = .refused r from hstep] at hrun
      cases hrun

/-- One more request is served last. -/
theorem Gen.serve_concat (order : List (Nat × Request)) (r : Nat) (rq : Request) (g : Gen) :
    Gen.serve (order ++ [(r, rq)]) g =
      ((effectOf (decode rq.word) (Gen.serve order g).1).1,
        (Gen.serve order g).2 ++
          [{ requester := r, request := rq,
             response := (effectOf (decode rq.word) (Gen.serve order g).1).2 }]) := by
  induction order generalizing g with
  | nil => rfl
  | cons p later ih => simp [Gen.serve, ih]

/-- Every request served is answered, in the order served. -/
theorem Gen.serve_requests (order : List (Nat × Request)) (g : Gen) (r : Nat) :
    ((Gen.serve order g).2.filter (·.requester == r)).map (·.request) =
      (order.filter (·.1 == r)).map (·.2) := by
  induction order generalizing g with
  | nil => rfl
  | cons p later ih =>
    simp only [Gen.serve, List.filter_cons]
    split <;> simp [ih]

/-- What requester `r` is still to receive: the response that it has not consumed, or the one that its command in
execution will get if it leaves the generator state `g`. -/
def ReqStatus.due (st : ReqStatus) (r : Nat) (g : Gen) : List Received :=
  match st with
  | .answered rq resp => [{ requester := r, request := rq, response := resp }]
  | .executing rq => [{ requester := r, request := rq, response := answerOf (decode rq.word) g }]
  | _ => []

def State.due (s : State) (r : Nat) : List Received := (s.status r).due r s.complete.gen

/-- The linearization of a run at every point, inside a command too: the generator state in which the command in
execution ends, and the responses received and due of each requester, are those of serving the requests `order` one
after another from the generator state that reset installs. -/
structure State.ServedAs (s : State) (order : List (Nat × Request)) : Prop where
  gen : s.complete.gen = (Gen.serve order (Gen.seeded seed0)).1
  responses : ∀ r, s.received.filter (·.requester == r) ++ s.due r =
    (Gen.serve order (Gen.seeded seed0)).2.filter (·.requester == r)

theorem complete_gen_congr {s t : State} (hgen : t.gen = s.gen) (hphase : t.phase = s.phase) :
    t.complete.gen = s.complete.gen := by
  rw [State.complete, State.complete, hphase]
  exact ticks_gen_congr _ hgen hphase

/-- Only for a command in execution the generator state matters. -/
theorem ReqStatus.due_congr {st : ReqStatus} (h : ∀ rq, st ≠ .executing rq) (r : Nat) (g g' : Gen) :
    st.due r g = st.due r g' := by
  cases st with
  | executing rq => exact absurd rfl (h rq)
  | _ => rfl

/-- A change that touches neither the end of the command in execution nor what is received or due leaves the order. -/
theorem State.ServedAs.congr {s t : State} {order : List (Nat × Request)} (h : s.ServedAs order)
    (hgen : t.complete.gen = s.complete.gen)
    (hresponses : ∀ r, t.received.filter (·.requester == r) ++ t.due r =
      s.received.filter (·.requester == r) ++ s.due r) : t.ServedAs order :=
  ⟨hgen.trans h.gen, fun r => (hresponses r).trans (h.responses r)⟩

theorem State.ServedAs.withInputs {s : State} {order : List (Nat × Request)} (h : s.ServedAs order)
    (moves : List Move) : (s.withInputs moves).ServedAs order := by
  have hgen : (s.withInputs moves).complete.gen = s.complete.gen := complete_gen_congr rfl rfl
  exact h.congr hgen fun r => by rw [State.due, hgen]; rfl

/-- A request submitted is not yet served. -/
theorem submit_servedAs {s : State} {order : List (Nat × Request)} (h : s.ServedAs order) (hinv : s.Inv) {r : Nat}
    {rq : Request} (hidle : s.status r = .idle) : (s.setStatus r (.pending rq)).ServedAs order := by
  have hgen : (s.setStatus r (.pending rq)).complete.gen = s.complete.gen := complete_gen_congr rfl rfl
  refine h.congr hgen fun r' => congrArg _ ?_
  rw [State.due, State.due, hgen, State.status_setStatus hinv.requesters]
  split
  · next e => rw [e, hidle]; rfl
  · rfl

/-- The response consumed was due and is now received. -/
theorem consume_servedAs {s t : State} {order : List (Nat × Request)} (h : s.ServedAs order) (hinv : s.Inv) {r : Nat}
    {rq : Request} {resp : Response} (hanswered : s.status r = .answered rq resp)
    (ht : t = { s.setStatus r .idle with
      received := s.received ++ [{ requester := r, request := rq, response := resp }] }) : t.ServedAs order := by
  have hgen : t.complete.gen = s.complete.gen := complete_gen_congr (by rw [ht]; rfl) (by rw [ht]; rfl)
  have hstatus : ∀ r', t.status r' = if r' = r then .idle else s.status r' := fun r' => by
    rw [← State.status_setStatus hinv.requesters, ht]
    rfl
  refine h.congr hgen fun r' => ?_
  rw [State.due, State.due, hgen, hstatus, ht]
  by_cases e : r' = r
  · simp [e, hanswered, ReqStatus.due]
  · simp [e, Ne.symm e]

/-- A phase leaves the order: what it answers was due. -/
theorem tick_servedAs {s : State} {order : List (Nat × Request)} (h : s.ServedAs order) (hinv : s.Inv)
    (hrest : s.phase.atRest = false) : s.tick.ServedAs order := by
  obtain ⟨o, rq, hbusy, hphase⟩ := hinv.portBusy hrest
  have hgen : s.tick.complete.gen = s.complete.gen := by rw [tick_complete hrest]
  rcases tick_advances_or_answers hphase with ⟨hport, -⟩ | htick
  · refine h.congr hgen fun r => ?_
    rw [State.due, State.due, hgen, hport.received, State.status_congr hport.requesters]
  · have hend : s.complete.gen = s.gen := by
      rw [← tick_complete hrest, complete_of_atRest (by rw [htick, State.finishWith_phase]; rfl), htick,
        State.gen_finishWith]
    refine h.congr hgen fun r => ?_
    rw [State.due, State.due, hgen, htick, State.finishWith_received]
    by_cases e : r = o
    · rw [e, hbusy.status_finishWith, hbusy.executing, hend]
      rfl
    · rw [State.status_finishWith_other s _ (by rw [hbusy.owner]; simpa using Ne.symm e)]

/-- The request started on a healthy engine is served last. -/
theorem start_servedAs {s : State} {order : List (Nat × Request)} (h : s.ServedAs order) (hinv : s.Inv)
    (hrest : s.phase.atRest = true) (hhealthy : s.poison = false) {r : Nat} {rq : Request}
    (hpending : s.status r = .pending rq) : (s.startPhases r rq).ServedAs (order ++ [(r, rq)]) := by
  have hserved : s.gen = (Gen.serve order (Gen.seeded seed0)).1 := by rw [← h.gen, complete_of_atRest hrest]
  have hgen : (s.startPhases r rq).complete.gen = (effectOf (decode rq.word) s.gen).1 := by
    rw [complete_startPhases r rq hhealthy hinv.table, State.gen_finishWith, State.gen_withGen]
  have hstatus : ∀ r', (s.startPhases r rq).status r' = (s.grant r rq).status r' := fun r' => by
    rw [State.startPhases_healthy r rq hhealthy]
    rfl
  have hreceived : (s.startPhases r rq).received = s.received := by
    rw [State.startPhases_healthy r rq hhealthy]
    rfl
  refine ⟨by rw [Gen.serve_concat, ← hserved, hgen], fun r' => ?_⟩
  rw [Gen.serve_concat, ← hserved, List.filter_append, ← h.responses, hreceived, State.due, State.due, hgen,
    hstatus]
  by_cases e : r' = r
  · rw [e, State.status_grant, hpending]
    simp [ReqStatus.due, answerOf_effectOf _ (g := s.gen) hinv.table]
  · rw [State.status_grant_other s rq e,
      ReqStatus.due_congr ((hinv.portFree hrest).none_executing r') r' _ s.complete.gen]
    simp [Ne.symm e]

/-- All the phases left leave the order; by induction on their number. -/
theorem complete_servedAs {s : State} {order : List (Nat × Request)} (h : s.ServedAs order) (hinv : s.Inv) :
    s.complete.ServedAs order := by
  induction hn : s.phase.left generalizing s with
  | zero => rwa [State.complete, hn]
  | succ n ih =>
    have hrest : s.phase.atRest = false := Phase.not_atRest_of_left (by omega)
    have hleft := tick_left hrest
    rw [← tick_complete hrest]
    exact ih (tick_servedAs h hinv hrest) (tick_inv hinv hrest) (by omega)

/-- Accepting a request and executing it whole is starting it and completing it. -/
theorem accept_servedAs {s t : State} {order : List (Nat × Request)} (h : s.ServedAs order) (hinv : s.Inv)
    (hrest : s.phase.atRest = true) (hhealthy : s.poison = false) {r : Nat} {rq : Request}
    (hpending : s.status r = .pending rq) (hexec : exec (decode rq.word) (s.grant r rq) = .next t) :
    t.ServedAs (order ++ [(r, rq)]) := by
  have ht : t = (s.startPhases r rq).complete := by
    rw [exec_healthy _ (s := s.grant r rq) hhealthy] at hexec
    rw [complete_startPhases r rq hhealthy hinv.table]
    exact (Host.Outcome.next.inj hexec).symm
  rw [ht]
  exact complete_servedAs (start_servedAs h hinv hrest hhealthy hpending) (startPhases_inv hinv hrest hpending)

/-- A move that leaves the engine healthy serves one more request or none. -/
theorem makeMove_servedAs {s t : State} {m : Move} (hserved : s.poison = false → ∃ order, s.ServedAs order)
    (hinv : s.Inv) (hreset : m ≠ .reset) (hmove : makeMove s m = .next t) (hhealthy : t.poison = false) :
    ∃ order, t.ServedAs order := by
  have hpoison : s.poison = false := by
    rcases makeMove_poison hmove with hsame | ⟨rfl, -⟩ | ⟨-, -, -, rfl⟩
    · exact hsame.symm.trans hhealthy
    · exact absurd rfl hreset
    · cases (State.abortEvent_poison s).symm.trans hhealthy
  obtain ⟨order, h⟩ := hserved hpoison
  rcases makeMove_cases hmove with
    ⟨r, rq, _, _, hidle, rfl⟩ | ⟨r, rq, _, hpending, hrest, hexec⟩ | ⟨r, rq, _, hpending, hrest, rfl⟩ |
    ⟨_, hrest, rfl⟩ | ⟨r, rq, resp, _, hanswered, ht⟩ | ⟨rfl, _⟩ | ⟨_, _, _, rfl⟩
  · exact ⟨order, submit_servedAs h hinv hidle⟩
  · exact ⟨_, accept_servedAs h hinv hrest hpoison hpending hexec⟩
  · exact ⟨_, start_servedAs h hinv hrest hpoison hpending⟩
  · exact ⟨order, tick_servedAs h hinv hrest⟩
  · exact ⟨order, consume_servedAs h hinv hanswered ht⟩
  · exact absurd rfl hreset
  · cases (State.abortEvent_poison s).symm.trans hhealthy

/-! ### Memory: a poisoned run has lost a requester (60_exceptions.md R142) -/

/-- Some requester's command was aborted: it will never be answered. -/
def State.HasLost (s : State) : Prop := ∃ r rq, s.status r = .lost rq

theorem State.status_startPhases_other (s : State) {r r' : Nat} (rq : Request) (h : r' ≠ r) :
    (s.startPhases r rq).status r' = s.status r' := by
  rw [← status_grant_other s rq h]
  unfold State.startPhases
  split
  · exact status_respond_other _ _ (by simpa using Ne.symm h)
  · rfl

/-- A phase can answer the command in execution and touches no other requester. -/
theorem State.PortBusy.status_tick_other {s : State} {o : Nat} {rq : Request} (h : s.PortBusy o rq)
    (hphase : s.phase.belongsTo (decode rq.word)) {r : Nat} (hne : r ≠ o) : s.tick.status r = s.status r := by
  rcases tick_advances_or_answers hphase with ⟨hport, -⟩ | htick
  · exact status_congr hport.requesters r
  · rw [htick]
    exact status_finishWith_other s _ (by rw [h.owner]; simpa using Ne.symm hne)

/-- A requester that has lost its command keeps that status: no move but reset takes it away. -/
theorem makeMove_keeps_lost {s t : State} {m : Move} {r : Nat} {rq : Request} (hinv : s.Inv) (hreset : m ≠ .reset)
    (hmove : makeMove s m = .next t) (hlost : s.status r = .lost rq) : t.status r = .lost rq := by
  have hne : ∀ {r'}, s.status r' ≠ .lost rq → r ≠ r' := fun h e => h (by rw [← e]; exact hlost)
  rw [← hlost]
  rcases makeMove_cases hmove with
    ⟨r', rq', _, _, hidle, rfl⟩ | ⟨r', rq', _, hpending, _, hexec⟩ | ⟨r', rq', _, hpending, _, rfl⟩ |
    ⟨_, hrest, rfl⟩ | ⟨r', rq', resp, _, hanswered, rfl⟩ | ⟨rfl, _⟩ | ⟨_, hrest, _, rfl⟩
  · exact State.status_setStatus_other s _ (hne (by simp [hidle]))
  · have hr := hne (r' := r') (by simp [hpending])
    obtain ⟨-, -, -, -, -, -, hother, -⟩ := frameOfDrawAndSeed _ _ _ hexec
    rw [hother r (by simpa using Ne.symm hr), State.status_grant_other s rq' hr]
  · exact State.status_startPhases_other s rq' (hne (by simp [hpending]))
  · obtain ⟨o, rq', hbusy, hphase⟩ := hinv.portBusy hrest
    exact hbusy.status_tick_other hphase (hne (by simp [hbusy.executing]))
  · exact State.status_setStatus_other s .idle (hne (by simp [hanswered]))
  · exact absurd rfl hreset
  · obtain ⟨o, rq', hbusy, -⟩ := hinv.portBusy hrest
    have ho : r ≠ o := hne (by simp [hbusy.executing])
    rw [State.status_congr (State.abortEvent_requesters s),
      State.status_dropOwner_other s (by rw [hbusy.owner]; simpa using Ne.symm ho)]

/-- An abort makes its requester lose its command. -/
theorem abortEvent_hasLost {s : State} (hinv : s.Inv) (hrest : s.phase.atRest = false) : s.abortEvent.HasLost := by
  obtain ⟨o, rq, hbusy, -⟩ := hinv.portBusy hrest
  refine ⟨o, rq, ?_⟩
  rw [State.status_congr (State.abortEvent_requesters s),
    State.status_dropOwner_owner hinv.requesters.1 hbusy.owner, hbusy.executing]
  rfl

theorem makeMove_hasLost {s t : State} {m : Move} (hlost : s.poison = true → s.HasLost) (hinv : s.Inv)
    (hreset : m ≠ .reset) (hmove : makeMove s m = .next t) (hpoison : t.poison = true) : t.HasLost := by
  rcases makeMove_poison hmove with hsame | ⟨rfl, -⟩ | ⟨-, hrest, -, rfl⟩
  · obtain ⟨r, rq, h⟩ := hlost (hsame.symm.trans hpoison)
    exact ⟨r, rq, makeMove_keeps_lost hinv hreset hmove h⟩
  · exact absurd rfl hreset
  · exact abortEvent_hasLost hinv hrest

/-! ### Memory: runs of a script (20_memory.md R47, R48, 70_reset_and_hazards.md R178) -/

/-- What holds at every point of a run under the parameters `cfg`: on a healthy engine the requests accepted so far
were served in one order, and on a poisoned one a requester will never be answered. -/
structure State.RunInv (cfg : Config) (s : State) : Prop where
  inv : s.Inv
  params : s.cfg = cfg
  noReset : Move.reset ∉ s.inputs
  healthy : s.poison = false → ∃ order, s.ServedAs order
  poisoned : s.poison = true → s.HasLost

@[simp] theorem State.tick_inputs (s : State) : s.tick.inputs = s.inputs := by
  rcases tick_port s with h | ⟨_, h⟩ | ⟨_, h⟩
  · exact h.inputs
  · rw [h, State.finishWith_inputs]
  · rw [h, State.finishWith_inputs]

/-- A move leaves the moves behind it to come, the environment's events included. -/
theorem makeMove_inputs {s t : State} {m : Move} (hmove : makeMove s m = .next t) : t.inputs = s.inputs := by
  rcases makeMove_cases hmove with
    ⟨r, rq, _, _, _, rfl⟩ | ⟨r, rq, _, _, _, hexec⟩ | ⟨r, rq, _, _, _, rfl⟩ | ⟨_, _, rfl⟩ |
    ⟨r, rq, resp, _, _, rfl⟩ | ⟨_, rfl⟩ | ⟨_, _, _, rfl⟩
  · exact State.setStatus_inputs s r _
  · obtain ⟨-, -, -, hinputs, -⟩ := frameOfDrawAndSeed _ _ _ hexec
    exact hinputs
  · exact State.startPhases_inputs s r rq
  · exact State.tick_inputs s
  · exact State.setStatus_inputs s r .idle
  · exact State.resetEvent_inputs s
  · exact State.abortEvent_inputs s

/-- A run begins with nothing served and nothing lost. -/
theorem runInv_start (s : State) {moves : List Move} (h : Move.reset ∉ moves) :
    State.RunInv s.cfg (s.resetEvent.withInputs moves) where
  inv := (resetEvent_inv s).withInputs moves
  params := rfl
  noReset := h
  healthy _ := ⟨[], by rw [complete_of_atRest rfl]; exact State.gen_resetEvent s, fun _ => rfl⟩
  poisoned h := by cases h

theorem step_runInv {cfg : Config} {s t : State} (h : s.RunInv cfg) (hstep : step s = .next t) : t.RunInv cfg := by
  rcases step_cases hstep with ⟨_, rfl, _⟩ | ⟨m, rest, hinputs, hmove⟩
  · exact h
  · have hm : m ≠ .reset ∧ Move.reset ∉ rest := by
      have hnone := h.noReset
      rcases hinputs with hin | ⟨-, rfl, rfl⟩
      · rw [hin] at hnone
        exact ⟨fun e => hnone (by simp [e]), fun e => hnone (by simp [e])⟩
      · simp
    obtain ⟨hreset, hrest⟩ := hm
    have hinv := h.inv.withInputs rest
    have hserved : (s.withInputs rest).poison = false → ∃ order, (s.withInputs rest).ServedAs order := fun hp =>
      (h.healthy hp).imp fun _ hs => hs.withInputs rest
    exact ⟨makeMove_inv hinv hmove, (makeMove_keeps_cfg hmove).trans h.params,
      by rw [makeMove_inputs hmove]; exact hrest,
      makeMove_servedAs hserved hinv hreset hmove,
      makeMove_hasLost (s := s.withInputs rest) h.poisoned hinv hreset hmove⟩

/-- A run that is over has lost no requester, so its engine is healthy, and nothing is due any more. -/
theorem runOver_served {cfg : Config} {lines : List ScriptLine} {t : State} (h : t.RunInv cfg)
    (hover : t.RunOver lines) : t.poison = false ∧ ∃ order,
      t.gen = (Gen.serve order (Gen.seeded seed0)).1 ∧
      ∀ r, t.received.filter (·.requester == r) =
        (Gen.serve order (Gen.seeded seed0)).2.filter (·.requester == r) := by
  have hhealthy : t.poison = false := by
    rw [← Bool.not_eq_true]
    intro hpoison
    obtain ⟨r, rq, hlost⟩ := h.poisoned hpoison
    rw [hover.nothingOutstanding r] at hlost
    cases hlost
  obtain ⟨order, hserved⟩ := h.healthy hhealthy
  refine ⟨hhealthy, order, ?_, fun r => ?_⟩
  · rw [← hserved.gen, complete_of_atRest hover.atRest]
  · rw [← hserved.responses, State.due, hover.nothingOutstanding r]
    simp [ReqStatus.due]

/-- Settles O57: the order is that in which the engine accepted the requests, and every run keeps its linearization. -/
theorem finishedRunsAreSequentiallyConsistent : Obligations.FinishedRunsAreSequentiallyConsistent := by
  rintro lines _ t ⟨-, ⟨s, moves, n, rfl, hmoves, hrun⟩, hover⟩
  have hinv : t.RunInv s.cfg := run_induction (fun _ _ => step_runInv) (runInv_start s hmoves) hrun
  obtain ⟨hhealthy, order, hgen, hresponses⟩ := runOver_served hinv hover
  refine ⟨order, fun r => ?_, hgen, hhealthy, hresponses⟩
  rw [← hinv.params, ← hover.served r, State.requestsServed, hresponses r, Gen.serve_requests]

/-- A list of pairs that all have key `k` is given by its values. -/
theorem eq_map_of_filter_nil {order : List (Nat × Request)} {k : Nat}
    (h : ∀ r, r ≠ k → (order.filter (·.1 == r)).map (·.2) = []) :
    order = ((order.filter (·.1 == k)).map (·.2)).map (k, ·) := by
  have hall : ∀ p ∈ order, p.1 = k := fun p hp => by
    by_contra hne
    have hnil := List.map_eq_nil_iff.1 (h p.1 hne)
    exact List.not_mem_nil (hnil ▸ List.mem_filter.2 ⟨hp, by simp⟩)
  rw [List.filter_eq_self.2 fun p hp => by simp [hall p hp], List.map_map]
  exact ((List.map_congr_left fun p hp => by rw [Function.comp, ← hall p hp]; rfl).trans (List.map_id order)).symm

/-- A line's request is that of the requester the line names. -/
theorem assembleLine_requester {nReq k k' : Nat} {op : ScriptOp} {rq : Request}
    (h : assembleLine nReq (.command k op) = .ok (some (k', rq))) : k' = k := by
  simp only [assembleLine] at h
  split at h
  · split at h
    · cases h; rfl
    · cases h
  · cases h

/-- A script of requester `k` alone makes no requests of another. -/
theorem requestsOf_other {nReq k r : Nat} {lines : List ScriptLine}
    (hlines : ∀ line ∈ lines, ∃ op, line = .command k op) (h : r ≠ k) : requestsOf nReq r lines = [] := by
  refine List.filterMap_eq_nil_iff.2 fun line hline => ?_
  obtain ⟨op, rfl⟩ := hlines line hline
  split
  · next k' rq hassembled =>
    rw [assembleLine_requester hassembled]
    exact if_neg (Ne.symm h)
  · rfl

/-- Settles O58: the one order of its requests is that of its script. -/
theorem oneRequesterRunsAreDetermined : Obligations.OneRequesterRunsAreDetermined := by
  intro lines cfg cfg' t u k hnReq hlines ht hu
  obtain ⟨order, horder, hgen, hhealthy, hresponses⟩ := finishedRunsAreSequentiallyConsistent lines cfg t ht
  obtain ⟨order', horder', hgen', hhealthy', hresponses'⟩ := finishedRunsAreSequentiallyConsistent lines cfg' u hu
  have heq : order = order' := by
    rw [eq_map_of_filter_nil fun r hr => (horder r).trans (requestsOf_other hlines hr),
      eq_map_of_filter_nil fun r hr => (horder' r).trans (requestsOf_other hlines hr), horder, horder', hnReq]
  refine ⟨by rw [hgen, hgen', heq], hhealthy.trans hhealthy'.symm, ?_⟩
  rw [State.receivedBy, State.receivedBy, hresponses, hresponses', heq]

end Sys2Proof.Machine

/-! ### Encoding: words as their fields (30_encoding.md R61, R65) -/

namespace Sys2Proof

/-- A field of one bit is that bit. -/
theorem extractLsb'_one {w : Nat} (x : BitVec w) (n : Nat) : x.extractLsb' n 1 = BitVec.ofBool (x.getLsbD n) := by
  refine BitVec.eq_of_getLsbD_eq fun i hi => ?_
  obtain rfl : i = 0 := by omega
  simp

/-- Adding a word to a field that stands above it puts the two side by side. -/
theorem add_setWidth_eq_append {k : Nat} (field : BitVec k) (v : Word) :
    (field ++ 0#32) + v.setWidth (k + 32) = field ++ v := by
  have habove : v.setWidth (k + 32) = 0#k ++ v := by
    ext i hi
    simp only [BitVec.getElem_setWidth, BitVec.getElem_append]
    split
    · rfl
    · simp only [BitVec.getElem_zero]
      exact BitVec.getLsbD_of_ge v i (by omega)
  rw [habove]
  exact BitVec.append_zero_add_zero_append

theorem append_toNat {k : Nat} (field : BitVec k) (v : Word) :
    (field ++ v).toNat = field.toNat * 2 ^ 32 + v.toNat := by
  rw [BitVec.toNat_append, ← Nat.shiftLeft_add_eq_or_of_lt v.isLt, Nat.shiftLeft_eq]

/-! ### Encoding: the decoder and the encoder (30_encoding.md R62, R68) -/

/-- R62, R66: the word of `SEED s` is a set `op` bit above the seed. -/
theorem encode_seed_eq_append (s : Word) : encode (.seed s) = 1#1 ++ s := add_setWidth_eq_append 1#1 s

/-- R61: a command word is its two fields. -/
theorem ofBool_append_argField (cw : CommandWord) : BitVec.ofBool (cw.getLsbD 32) ++ argField cw = cw := by
  rw [← extractLsb'_one]
  exact BitVec.extractLsb'_append_extractLsb'

theorem decode_of_op_clear {cw : CommandWord} (h : cw.getLsbD 32 = false) : decode cw = .draw :=
  if_pos (by rw [opField, extractLsb'_one, h]; rfl)

theorem decode_of_op_set {cw : CommandWord} (h : cw.getLsbD 32 = true) : decode cw = .seed (argField cw) :=
  if_neg (by rw [opField, extractLsb'_one, h]; decide)

/-- R63: a seed is the low 32 bits of the word, as a number too. -/
theorem argField_eq_ofNat (cw : CommandWord) : argField cw = BitVec.ofNat 32 (cw.toNat % 2 ^ 32) := by
  apply BitVec.eq_of_toNat_eq
  simp [argField]

/-- Settles O2: the two branches of the decoder. -/
theorem decodeFollowsTheOpBit : Obligations.DecodeFollowsTheOpBit := fun cw =>
  ⟨decode_of_op_clear, fun h => by rw [decode_of_op_set h, argField_eq_ofNat]⟩

theorem decode_encode (i : Instr) : decode (encode i) = i := by
  cases i with
  | draw => exact decode_of_op_clear rfl
  | seed s =>
    have hop : (encode (.seed s)).getLsbD 32 = true := Laws.Opcode.encode_seed_bit s 32
    have harg : argField (encode (.seed s)) = s := by
      rw [encode_seed_eq_append]
      exact BitVec.extractLsb'_append_eq_right
    rw [decode_of_op_set hop, harg]

/-- A SEED word is the encoding of what it decodes to; of the DRAW words the zero word alone is. -/
theorem encode_decode (cw : CommandWord) : encode (decode cw) = if cw.getLsbD 32 then cw else 0#33 := by
  cases hop : cw.getLsbD 32 with
  | false => rw [decode_of_op_clear hop]; rfl
  | true =>
    calc encode (decode cw)
      _ = 1#1 ++ argField cw := by rw [decode_of_op_set hop, encode_seed_eq_append]
      _ = BitVec.ofBool (cw.getLsbD 32) ++ argField cw := by rw [hop]; rfl
      _ = cw := ofBool_append_argField cw

theorem encode_injective : Function.Injective encode := Function.LeftInverse.injective decode_encode

theorem encode_seed_toNat (s : Word) : (encode (.seed s)).toNat = 0x100000000 + s.toNat := by
  rw [encode_seed_eq_append]
  exact append_toNat 1#1 s

/-- Settles O3: `decode` is a left inverse of `encode`, and a right inverse on the SEED words. -/
theorem decodeAndEncodeAgree : Obligations.DecodeAndEncodeAgree :=
  ⟨fun i _ => decode_encode i, encode_decode, fun _ _ h => encode_injective h, encode_seed_toNat⟩

/-- Settles O1: two words with a clear `op` bit, the words of two seeds, and two numbers that the decoder evaluates. -/
theorem specWordsDecode : Obligations.SpecWordsDecode := by
  refine ⟨decode_of_op_clear rfl, decode_of_op_clear rfl, decode_encode (.seed 0), decode_encode (.seed 0xdeadbeef),
    ?_, ?_⟩
  · decide
  · decide

theorem decodeNat_of_lt {w : Nat} (h : w < 2 ^ 33) : decodeNat w = .ok (decode (BitVec.ofNat 33 w)) := if_pos h

theorem decodeNat_of_ge {w : Nat} (h : 2 ^ 33 ≤ w) : decodeNat w = .error .widerThanCommandWord :=
  if_neg (Nat.not_lt.2 h)

/-- The 33 bits of a command word fit any `nbits` of at least as many. -/
theorem decodeTableWord_of_lt {nbits w : Nat} (hbits : 33 ≤ nbits) (h : w < 2 ^ 33) :
    decodeTableWord nbits w = some (decode (BitVec.ofNat 33 w)) := by
  have hfits : w % 2 ^ nbits = w := Nat.mod_eq_of_lt (h.trans_le (Nat.pow_le_pow_right (by decide) hbits))
  simp only [decodeTableWord, hfits, decodeNat_of_lt h]

/-- R64: the `arg` bits of a DRAW are not looked at. -/
theorem decode_draw_ignores_argField {cw : CommandWord} (h : cw.getLsbD 32 = false) : decode cw = decode 0#33 :=
  (decode_of_op_clear h).trans (decode_of_op_clear rfl).symm

/-- Settles O4: the decoder's two ranges of numbers, and its branch for a clear `op` bit. -/
theorem everyWordIsLegalAndDrawIgnoresItsArgument : Obligations.EveryWordIsLegalAndDrawIgnoresItsArgument := by
  refine ⟨fun w h => ⟨_, decodeNat_of_lt h, decodeTableWord_of_lt (by decide) h⟩, fun w h => decodeNat_of_ge h,
    fun cw s h => ?_⟩
  have hdecode := decode_draw_ignores_argField h
  exact ⟨hdecode, by rw [hdecode]⟩

/-! ### Encoding: the assembler (30_encoding.md R66, R67) -/

theorem assemble_seed_of_le {n : Nat} (h : n ≤ 4294967295) :
    assemble (.seed n) = .ok (.command (encode (.seed (BitVec.ofNat 32 n)))) :=
  if_pos (decide_eq_true h)

theorem assemble_seed_of_gt {n : Nat} (h : 4294967295 < n) : assemble (.seed n) = .error .literalOutOfRange :=
  if_neg (by simpa [ScriptOp.wf] using h)

theorem encode_seed_ofNat {n : Nat} (h : n ≤ 4294967295) :
    encode (.seed (BitVec.ofNat 32 n)) = BitVec.ofNat 33 (0x100000000 + n) := by
  apply BitVec.eq_of_toNat_eq
  rw [encode_seed_toNat, BitVec.toNat_ofNat, BitVec.toNat_ofNat]
  omega

/-- Settles O6: only the literal of SEED is tested, and a literal in range is the seed. -/
theorem scriptOperationsAssemble : Obligations.ScriptOperationsAssemble :=
  ⟨rfl, rfl, rfl, fun _ => ⟨fun h => by rw [assemble_seed_of_le h, encode_seed_ofNat h], assemble_seed_of_gt⟩⟩

/-- R66: a script operation assembles exactly when its literal is in range. -/
theorem wf_iff_assemble_ok (op : ScriptOp) : op.wf = true ↔ ∃ rq, assemble op = .ok rq := by
  cases op with
  | draw => exact ⟨fun _ => ⟨_, rfl⟩, fun _ => rfl⟩
  | drawd => exact ⟨fun _ => ⟨_, rfl⟩, fun _ => rfl⟩
  | seed n =>
    rcases Nat.lt_or_ge 4294967295 n with h | h
    · simp [assemble_seed_of_gt h, ScriptOp.wf, h]
    · simp [assemble_seed_of_le h, ScriptOp.wf, h]

theorem assembleLine_of_ok {nReq r : Nat} {op : ScriptOp} {rq : Request} (hr : r < nReq) (h : assemble op = .ok rq) :
    assembleLine nReq (.command r op) = .ok (some (r, rq)) := by
  simp only [assembleLine, if_pos hr, h]

theorem assembleLine_of_error {nReq r : Nat} {op : ScriptOp} {e : AssemblyError} (hr : r < nReq)
    (h : assemble op = .error e) : assembleLine nReq (.command r op) = .error e := by
  simp only [assembleLine, if_pos hr, h]

theorem assembleLine_noSuchRequester {nReq r : Nat} (op : ScriptOp) (hr : nReq ≤ r) :
    assembleLine nReq (.command r op) = .error .noSuchRequester := if_neg (Nat.not_lt.2 hr)

/-- R66: a line assembles exactly when its requester number and its literal are in range. -/
theorem wf_iff_assembleLine_ok (nReq : Nat) (line : ScriptLine) :
    line.wf nReq = true ↔ ∃ o, assembleLine nReq line = .ok o := by
  cases line with
  | reset => exact ⟨fun _ => ⟨_, rfl⟩, fun _ => rfl⟩
  | command r op =>
    rcases Nat.lt_or_ge r nReq with hr | hr
    · simp only [ScriptLine.wf, hr, decide_true, Bool.true_and, wf_iff_assemble_ok]
      cases hop : assemble op with
      | ok rq => simp [assembleLine_of_ok hr hop]
      | error e => simp [assembleLine_of_error hr hop]
    · simp [assembleLine_noSuchRequester op hr, ScriptLine.wf, hr]

/-- Settles O56: the cases of the assembler, by the requester number and then the operation. -/
theorem scriptLinesAssemble : Obligations.ScriptLinesAssemble := fun nReq =>
  ⟨rfl, fun _ _ _ hr h => assembleLine_of_ok hr h, fun _ op hr => assembleLine_noSuchRequester op hr,
    wf_iff_assembleLine_ok nReq⟩

end Sys2Proof

/-! ### Encoding: the response word (30_encoding.md R65) -/

namespace Sys2Proof.Machine

/-- R65: the word of `Ok(v)` is `fatal = 0`, `valid = 1` above the value. -/
theorem Response.word_okWord (v : Word) : Response.word (.okWord v) = 1#2 ++ v := add_setWidth_eq_append 1#2 v

/-- R65: a response word is read by its two flags. -/
theorem Response.ofWord_eq (w : ResponseWord) :
    Response.ofWord w =
      if w.getLsbD 33 then if w.getLsbD 32 then none else some .fatal
      else if w.getLsbD 32 then some (.okWord (w.extractLsb' 0 32)) else some .ok := by
  simp only [Response.ofWord, extractLsb'_one]
  cases w.getLsbD 33 <;> cases w.getLsbD 32 <;> rfl

/-- R65: the `fatal` bit is that of FATAL alone. -/
theorem Response.word_fatal_bit (resp : Response) : resp.word.getLsbD 33 = decide (resp = .fatal) := by
  cases resp with
  | okWord v => rw [word_okWord, BitVec.getLsbD_append]; rfl
  | ok => rfl
  | fatal => rfl

/-- R65: the `valid` bit is that of the responses with a value alone. -/
theorem Response.word_valid_bit (resp : Response) : resp.word.getLsbD 32 = true ↔ ∃ v, resp = .okWord v := by
  cases resp with
  | okWord v => exact ⟨fun _ => ⟨v, rfl⟩, fun _ => by rw [word_okWord, BitVec.getLsbD_append]; rfl⟩
  | ok => simp [Response.word]
  | fatal => simp [Response.word]

theorem Response.ofWord_word (resp : Response) : Response.ofWord resp.word = some resp := by
  cases resp with
  | ok => rfl
  | fatal => rfl
  | okWord v =>
    have hdata : (Response.word (.okWord v)).extractLsb' 0 32 = v := by
      rw [word_okWord]
      exact BitVec.extractLsb'_append_eq_right
    rw [ofWord_eq, word_fatal_bit, (word_valid_bit _).2 ⟨v, rfl⟩, hdata]
    rfl

/-- Settles O5: the word of a value is its two flags above the value, and each pair of flags is read as R65 says. -/
theorem responseWordBits : Obligations.ResponseWordBits := by
  refine ⟨rfl, rfl, fun v => ?_, Response.ofWord_word, ?_, fun w hfatal hvalid => ?_⟩
  · rw [Response.word_okWord]
    exact append_toNat 1#2 v
  · rintro resp ⟨hfatal, hvalid⟩
    obtain ⟨v, rfl⟩ := (Response.word_valid_bit resp).1 hvalid
    rw [Response.word_fatal_bit] at hfatal
    cases hfatal
  · rw [Response.ofWord_eq, hfatal, hvalid]
    rfl

/-! ### Encoding: a command and its one response (30_encoding.md R65, R67) -/

/-- R65: the response goes to the owner of the command in execution. -/
theorem State.status_respond_executing {s : State} (hs : s.requesters.Pairwise (fun a b => a.1 < b.1)) {o : Nat}
    {rq : Request} (howner : s.owner = some o) (hexec : s.status o = .executing rq) (resp : Response) :
    (s.respond resp).status o = .answered rq resp := by
  rw [status_respond_owner hs resp howner, hexec]
  rfl

/-- R65, R143: what a command in execution leaves of the engine, and the one response to its owner. -/
theorem exec_answers_owner (i : Instr) {s : State} (hs : s.requesters.Pairwise (fun a b => a.1 < b.1)) {o : Nat}
    {rq : Request} (howner : s.owner = some o) (hexec : s.status o = .executing rq) :
    ∃ t, exec i s = .next t ∧ t.owner = none ∧ t.poison = s.poison ∧
      t.gen = (if s.poison then s.gen else (effectOf i s.gen).1) ∧
      t.phase = (if s.poison then s.phase else .idle) ∧
      t.status o = .answered rq (if s.poison then .fatal else (effectOf i s.gen).2) := by
  cases hpoison : s.poison with
  | true =>
    exact ⟨_, exec_poisoned i hpoison, State.takeFatal_owner s, (State.takeFatal_poison s).trans hpoison,
      State.gen_takeFatal s, State.takeFatal_phase s, State.status_respond_executing hs howner hexec .fatal⟩
  | false =>
    exact ⟨_, exec_healthy i hpoison, State.finishWith_owner _ _, (State.finishWith_poison _ _).trans hpoison,
      State.gen_finishWith _ _, State.finishWith_phase _ _,
      State.status_respond_executing (s := s.withGen (effectOf i s.gen).1) hs howner hexec _⟩

/-- Settles O21: the response of a healthy engine to DRAW is read off the generator state that the DRAW leaves. -/
theorem everyCommandIsAnsweredToItsOwner : Obligations.EveryCommandIsAnsweredToItsOwner := by
  intro i s o rq hwf hcanonical howner hexec
  obtain ⟨t, ht, hnone, -, hgen, -, hstatus⟩ := exec_answers_owner i hcanonical.1 howner hexec
  refine ⟨t, ht, hnone, fun hpoison => ?_, fun hhealthy hdraw => ?_, fun hhealthy hseed => ?_⟩
  · rwa [hpoison] at hstatus
  · subst hdraw
    rw [hhealthy] at hgen hstatus
    have hword : t.gen.table.read t.gen.cursor = s.gen.draw.2 := by rw [hgen]; exact Gen.draw_read hwf
    exact hstatus.trans (by rw [← State.gen_table, ← State.gen_cursor, hword]; rfl)
  · rw [hhealthy] at hstatus
    cases i with
    | draw => exact absurd rfl hseed
    | seed a => exact hstatus

/-- R47, R152: the pending request of an engine at rest is accepted and executed whole. -/
theorem makeMove_accept {s : State} {r : Nat} {rq : Request} (hpending : s.status r = .pending rq)
    (hrest : s.phase.atRest = true) : makeMove s (.accept r) = exec (decode rq.word) (s.grant r rq) := by
  simp only [makeMove, State.grantable_pending hpending hrest]

/-- R67, R130: accepting a request whose word is a DRAW; but for the request in it, the outcome is that of any other
such request. -/
theorem accept_draw {s : State} (hinv : s.Inv) (hrest : s.phase.atRest = true) {r : Nat} (hr : r < s.cfg.nReq)
    {rq : Request} (hdraw : decode rq.word = .draw) :
    ∃ t, makeMove (s.setStatus r (.pending rq)) (.accept r) = .next t ∧ t.poison = s.poison ∧
      t.gen = (if s.poison then s.gen else s.gen.draw.1) ∧
      t.phase = (if s.poison then s.phase else .idle) ∧
      t.status r = .answered rq (if s.poison then .fatal else .okWord s.gen.draw.2) := by
  let p := s.setStatus r (.pending rq)
  have hpending : p.status r = .pending rq := State.status_setStatus_ne_idle s r (by simp)
  have hcanonical := State.setStatus_canonical (s := p)
    (State.setStatus_canonical hinv.requesters (.pending rq) hr) (.executing rq) hr
  obtain ⟨t, ht, -, hpoison, hgen, hphase, hstatus⟩ :=
    exec_answers_owner .draw (s := p.grant r rq) hcanonical.1 rfl (State.status_grant p r rq)
  exact ⟨t, by rw [makeMove_accept hpending hrest, hdraw, ht], hpoison, hgen, hphase, hstatus⟩

/-- Settles O52: accepted, a DRAWD is a request whose word is a DRAW. -/
theorem drawdIsOneDraw : Obligations.DrawdIsOneDraw := by
  intro s r cw hinv hrest hop hr
  obtain ⟨t, ht, htpoison, htgen, htphase, htstatus⟩ := accept_draw hinv hrest hr (rq := .drawd) (decode_encode .draw)
  obtain ⟨u, hu, hupoison, hugen, huphase, hustatus⟩ :=
    accept_draw hinv hrest hr (rq := .command cw) (decode_of_op_clear hop)
  exact ⟨t, u, _, ht, hu, htgen.trans hugen.symm, htpoison.trans hupoison.symm, htphase.trans huphase.symm,
    htstatus, hustatus⟩

end Sys2Proof.Machine

/-! ### SEED: the state it leaves (40_seed.md R80 to R85, R89, R91) -/

namespace Sys2Proof.Machine

/-- R80, R85: what SEED leaves of the engine it is executed on is `initialize(seed)`, at rest and healthy. -/
theorem seed_leaves_seeded {seed : Word} {s t : State} (h : s.poison = false) (hexec : exec (.seed seed) s = .next t) :
    t.gen = Gen.seeded seed ∧ t.poison = false ∧ t.phase = .idle := by
  obtain rfl := Host.Outcome.next.inj ((exec_healthy (.seed seed) h).symm.trans hexec)
  exact ⟨State.gen_finishWith _ _, (State.finishWith_poison _ _).trans h, State.finishWith_phase _ _⟩

/-- A healthy engine completes SEED. -/
theorem seed_completes (seed : Word) {s : State} (h : s.poison = false) :
    ∃ t, exec (.seed seed) s = .next t ∧ t.gen = Gen.seeded seed ∧ t.poison = false ∧ t.phase = .idle :=
  ⟨_, exec_healthy _ h, seed_leaves_seeded h (exec_healthy _ h)⟩

/-- A seeded table read at an index given as a number. -/
theorem seedTable_read_ofNat (seed : Word) {i : Nat} (h : i ≤ 4095) :
    (seedTable seed).read (BitVec.ofNat 12 i) = lookup resetWord (seedTable seed) i := by
  rw [Memory.read, BitVec.toNat_ofNat, Nat.mod_eq_of_lt (by omega)]

/-- Settles O7: the first three entries and the fill step of the seeded table, on the state that SEED leaves. -/
theorem seedInstallsTheSeededState : Obligations.SeedInstallsTheSeededState := by
  intro seed s h
  obtain ⟨t, hexec, hgen, hpoison, hphase⟩ := seed_completes seed h
  have htable : t.table = seedTable seed := congrArg Gen.table hgen
  have hcarry : t.carry = carry0 := congrArg Gen.carry hgen
  have hcursor : t.cursor = cursor0 := congrArg Gen.cursor hgen
  refine ⟨t, hexec, ?_, ?_, ?_, fun i hlo hhi => ?_, ?_, ?_, hpoison, hphase⟩
  · rw [htable]; exact seedTable_zeroth seed
  · rw [htable]; exact seedTable_first seed
  · rw [htable]; exact seedTable_second seed
  · obtain ⟨k, rfl⟩ : ∃ k, i = k + 3 := ⟨i - 3, by omega⟩
    rw [htable, seedTable_read_ofNat seed hhi, seedTable_read_ofNat seed (by omega),
      seedTable_read_ofNat seed (by omega), Nat.add_sub_cancel, show k + 3 - 2 = k + 1 by omega]
    exact seedTable_filled seed k (Nat.lt_succ_of_le hhi)
  · rw [hcarry]; rfl
  · rw [hcursor]; rfl

/-- Different seeds give different generator states: entry 0 is the seed. -/
theorem Gen.seeded_injective : Function.Injective Gen.seeded := fun seed seed' h => by
  have hzeroth := congrArg (fun g => lookup resetWord g.table 0) h
  exact (seedTable_zeroth seed).symm.trans (hzeroth.trans (seedTable_zeroth seed'))

/-- Settles O9: whatever the engine held, SEED leaves `initialize(seed)`. -/
theorem seedDependsOnItsOperandAlone : Obligations.SeedDependsOnItsOperandAlone := by
  refine ⟨fun seed s s' h h' => ?_, fun seed s t u h hfirst hsecond => ?_, fun seed seed' s t t' h hne ht ht' => ?_⟩
  · obtain ⟨t, hexec, hgen, -⟩ := seed_completes seed h
    obtain ⟨t', hexec', hgen', -⟩ := seed_completes seed h'
    have heq : t.gen = t'.gen := hgen.trans hgen'.symm
    exact ⟨t, t', hexec, hexec', heq, fun n => congrArg (Gen.outputs n) heq⟩
  · obtain ⟨hgen, hpoison, -⟩ := seed_leaves_seeded h hfirst
    exact (seed_leaves_seeded hpoison hsecond).1.trans hgen.symm
  · rw [(seed_leaves_seeded h ht).1, (seed_leaves_seeded h ht').1]
    exact Gen.seeded_injective.ne hne

/-- The generator state right after reset is `initialize(0)` (R30). -/
theorem reset_gen : State.reset.gen = Gen.seeded seed0 := State.gen_resetEvent State.reset

/-- R91: the ten words that the source gives for seed 0, drawn from the reset contents. -/
theorem outputs_reset :
    (Gen.outputs 10 State.reset.gen).map BitVec.toNat =
      [4294604858, 367747001, 735501178, 4294962861, 735512785, 3666536092, 3666528614, 4294955383,
        367747001, 735501178] := by decide

/-- Settles O10: the reset state is healthy and its generator state is `initialize(0)`. -/
theorem seedRestartsTheSequence : Obligations.SeedRestartsTheSequence := by
  refine ⟨fun seed s h => ?_, fun s h => ?_⟩
  · obtain ⟨t, hexec, hgen, hpoison, hphase⟩ := seed_completes seed h
    obtain ⟨u, hexec', hgen', hpoison', hphase'⟩ := seed_completes seed (s := State.reset) rfl
    exact ⟨t, u, hexec, hexec', hgen.trans hgen'.symm, hpoison.trans hpoison'.symm, hphase.trans hphase'.symm⟩
  · obtain ⟨t, hexec, hgen, hpoison, hphase⟩ := seed_completes seed0 h
    have hreset : t.gen = State.reset.gen := hgen.trans reset_gen.symm
    exact ⟨t, hexec, hreset, hpoison, hphase, by rw [hreset]; exact outputs_reset⟩

/-! ### SEED: the period of the seeded table (40_seed.md R90) -/

/-- In two fill steps, one on the result of the other, `PHI` and the seed cancel. -/
theorem mix_mix_right (a b c seed : Word) : mix c (mix a b seed) seed = a ^^^ b ^^^ c := by
  calc mix c (mix a b seed) seed
      = (a ^^^ b ^^^ c) ^^^ (phi ^^^ phi) ^^^ (seed ^^^ seed) := by simp only [mix]; ac_rfl
    _ = a ^^^ b ^^^ c := by simp only [BitVec.xor_self, BitVec.xor_zero]

/-- A fill step on the results of two neighbouring ones: what these have in common cancels. -/
theorem mix_mix_mix (a b c seed : Word) : mix (mix a b seed) (mix b c seed) seed = mix a c seed := by
  calc mix (mix a b seed) (mix b c seed) seed
      = mix a c seed ^^^ (b ^^^ b) ^^^ (phi ^^^ phi) ^^^ (seed ^^^ seed) := by simp only [mix]; ac_rfl
    _ = mix a c seed := by simp only [BitVec.xor_self, BitVec.xor_zero]

/-- Five entries on, the fill has the XOR of three neighbours, without `PHI` and the seed. -/
theorem FilledWith.add_five {seed : Word} {f : Nat → Word} (h : FilledWith seed f) {k : Nat} (hk : k + 5 < lag) :
    f (k + 5) = f k ^^^ f (k + 1) ^^^ f (k + 2) := by
  rw [h (k + 2) hk, h k (by omega), mix_mix_right]

/-- Six entries on, the middle one of the three has cancelled. -/
theorem FilledWith.add_six {seed : Word} {f : Nat → Word} (h : FilledWith seed f) {k : Nat} (hk : k + 6 < lag) :
    f (k + 6) = mix (f k) (f (k + 2)) seed := by
  rw [h (k + 3) hk, h k (by omega), h (k + 1) (by omega), mix_mix_mix]

/-- Seven entries on, the fill repeats. -/
theorem FilledWith.add_seven {seed : Word} {f : Nat → Word} (h : FilledWith seed f) {k : Nat} (hk : k + 7 < lag) :
    f (k + 7) = f k := by
  rw [h.add_six (k := k + 1) hk, h k (by omega), mix_mix_right, BitVec.xor_assoc, BitVec.xor_self, BitVec.xor_zero]

theorem FilledWith.mod_seven {seed : Word} {f : Nat → Word} (h : FilledWith seed f) {k : Nat} (hk : k < lag) :
    f k = f (k % 7) := by
  induction k using Nat.strong_induction_on with
  | _ k ih =>
    by_cases hlt : k < 7
    · rw [Nat.mod_eq_of_lt hlt]
    · obtain ⟨j, rfl⟩ : ∃ j, k = j + 7 := ⟨k - 7, by omega⟩
      rw [h.add_seven hk, ih j (by omega) (by omega), Nat.add_mod_right]

/-- R90's `P`: the seven words that the table of `initialize(seed)` repeats. -/
def periodWords (seed : Word) : List Word :=
  let K := phi ^^^ seed
  let p0 := seed
  let p1 := seed + phi
  let p2 := seed + phi + phi
  [p0, p1, p2, p0 ^^^ p1 ^^^ K, p1 ^^^ p2 ^^^ K, p0 ^^^ p1 ^^^ p2, p0 ^^^ p2 ^^^ K]

/-- They are the first seven entries of the seeded table: three that are given and four fill steps. -/
theorem periodWords_eq_map (seed : Word) :
    periodWords seed = (List.range 7).map (lookup resetWord (seedTable seed)) := by
  have hfill := seedTable_filled seed
  have h3 := hfill 0 (by decide)
  have h4 := hfill 1 (by decide)
  have h5 := hfill.add_five (k := 0) (by decide)
  have h6 := hfill.add_six (k := 0) (by decide)
  simp only [mix, Nat.reduceAdd, seedTable_zeroth, seedTable_first, seedTable_second] at h3 h4 h5 h6
  simp only [periodWords, List.range, List.range.loop, List.map_cons, List.map_nil, seedTable_zeroth, seedTable_first,
    seedTable_second, h3, h4, h5, h6, BitVec.xor_assoc]

/-- R90: every entry of the seeded table is the word of `P` at its index modulo 7. -/
theorem seedTable_period (seed : Word) {i : Nat} (h : i ≤ 4095) :
    (periodWords seed)[i % 7]? = some ((seedTable seed).read (BitVec.ofNat 12 i)) := by
  rw [seedTable_read_ofNat seed h, (seedTable_filled seed).mod_seven (Nat.lt_succ_of_le h), periodWords_eq_map,
    List.getElem?_map, List.getElem?_range (Nat.mod_lt i (by decide)), Option.map_some]

/-- Settles O8: the entries named in the statement are special cases of the period. -/
theorem seededTableHasPeriodSeven : Obligations.SeededTableHasPeriodSeven := by
  intro seed
  refine ⟨fun i hi => seedTable_period seed hi, ?_, fun k hk => ?_, fun i => ?_⟩
  · exact (Option.some.inj (seedTable_period seed (Nat.le_refl 4095))).symm
  · have hperiod := seedTable_period seed (show 4089 + k ≤ 4095 by omega)
    rwa [show (4089 + k) % 7 = k + 1 by omega] at hperiod
  · have hperiod := seedTable_period seed (Nat.le_of_lt_succ i.isLt)
    rw [BitVec.ofNat_toNat, BitVec.setWidth_eq] at hperiod
    exact List.mem_of_getElem? hperiod

/-! ### SEED: its phases (40_seed.md R86, R88) -/

/-- R88: while `fillidx <= 4095`, I_FILL writes the entry at `fillidx` and goes on to the next. -/
theorem tick_of_iFill_le {s : State} {seed : Word} {i : BitVec 13} (hp : s.phase = .iFill seed i)
    (h : i.toNat ≤ 4095) :
    s.tick = { s with
      table := s.table.write (fillWrite i) (mix (s.table.read (fillRead3 i)) (s.table.read (fillRead2 i)) seed)
      phase := .iFill seed (i + 1) } := by
  have hle : i.ule lastFillIdx = true := decide_eq_true h
  simp only [State.tick, hp, hle, if_true]

/-- R88: past the last index I_FILL writes nothing and leaves. -/
theorem tick_of_iFill_gt {s : State} {seed : Word} {i : BitVec 13} (hp : s.phase = .iFill seed i) (h : 4095 < i.toNat) :
    s.tick = { s with phase := .iFin } := by
  have hgt : i.ule lastFillIdx = false := decide_eq_false (Nat.not_le_of_lt h)
  simp only [State.tick, hp, hgt, Bool.false_eq_true, if_false]

/-- Settles O42: the start of a command on a healthy and on a poisoned engine, and then one phase after another. -/
theorem seedPhasesInOrder : Obligations.SeedPhasesInOrder := by
  intro s a k r rq
  refine ⟨fun hseed h => ?start, fun _ h => ?refused, fun hp => ?latch, fun hp => ?entry0, fun hp => ?entry1,
    fun hp => ?entry2, fun hp _ hle => ?fill, fun hp hgt => ?fillEnd, fun hp => ?fin, fun hp => ?resp⟩
  case start => rw [State.startPhases_healthy r rq h, hseed]; rfl
  case refused => rw [State.startPhases_poisoned r rq h, State.takeFatal_phase, State.grant_phase]
  case fill =>
    rw [tick_of_iFill_le hp hle, BitVec.ofNat_add, BitVec.ofNat_toNat, BitVec.setWidth_eq]
    exact ⟨rfl, rfl⟩
  case fillEnd => rw [tick_of_iFill_gt hp hgt]; exact ⟨rfl, rfl⟩
  case fin => simp only [State.tick, hp]; exact ⟨trivial, rfl, rfl⟩
  all_goals simp only [State.tick, hp, phi, true_and]

end Sys2Proof.Machine

/-! ### DRAW: the datapath on words (41_draw.md R100, R105, R110) -/

namespace Sys2Proof.Machine

/-- R105: any sum of shifted copies of `q` and `c` that fits 64 bits is exact; by induction on the shifts. -/
theorem sumOfShifts_toNat (q c : Word) {shifts : List Nat}
    (h : (shifts.map (q.toNat * 2 ^ ·)).sum + c.toNat < 2 ^ 64) :
    (shifts.foldr (fun k acc => (q.zeroExtend 64 <<< k) + acc) (c.zeroExtend 64)).toNat =
      (shifts.map (q.toNat * 2 ^ ·)).sum + c.toNat := by
  have hq := q.isLt
  have hc := c.isLt
  induction shifts with
  | nil =>
    show (c.setWidth 64).toNat = 0 + c.toNat
    rw [BitVec.toNat_setWidth]
    omega
  | cons k shifts ih =>
    simp only [List.map_cons, List.sum_cons] at h ⊢
    have hshift : (q.setWidth 64 <<< k).toNat = q.toNat * 2 ^ k := by
      rw [BitVec.toNat_shiftLeft, BitVec.toNat_setWidth, Nat.shiftLeft_eq,
        Nat.mod_eq_of_lt (a := q.toNat) (by omega), Nat.mod_eq_of_lt (by omega)]
    rw [List.foldr_cons, BitVec.toNat_add, ih (by omega), hshift, Nat.mod_eq_of_lt (by omega), Nat.add_assoc]

/-- The positions of the one-bits of the multiplier add up to it (R105). -/
theorem sum_mulAShifts (n : Nat) : (mulAShifts.map (n * 2 ^ ·)).sum = 18782 * n := by
  simp only [mulAShifts, List.map_cons, List.map_nil, List.sum_cons, List.sum_nil]
  omega

theorem adderTree_toNat (q c : Word) : (adderTree q c).toNat = 18782 * q.toNat + c.toNat := by
  have hq := q.isLt
  have hc := c.isLt
  rw [adderTree, sumOfShifts_toNat q c (by rw [sum_mulAShifts]; omega), sum_mulAShifts]

/-- Settles O13: the nine addends fit 64 bits, and the eight shifts add up to the multiplier. -/
theorem adderTreeEqualsTheMac : Obligations.AdderTreeEqualsTheMac := by
  intro q c
  refine ⟨?_, adderTree_toNat q c, BitVec.eq_of_toNat_eq ((adderTree_toNat q c).trans (mac_toNat q c).symm)⟩
  rw [adderTree_toNat]
  omega

/-- Settles O17: the subtraction from `0xfffffffe` wraps for the largest word alone. -/
theorem complementOfTheFoldedWord : Obligations.ComplementOfTheFoldedWord := by
  intro x
  have hx := x.isLt
  refine ⟨fun hle => ?_, fun hmax => ?_, BitVec.eq_of_toNat_eq ?_⟩
  · rw [complement_toNat]
    omega
  · rw [complement_toNat]
    omega
  · rw [complement_toNat, BitVec.toNat_sub, BitVec.toNat_not, BitVec.toNat_ofNat]
    omega

theorem hi32_eq_shift (v : DWord) : hi32 v = (v >>> 32).setWidth 32 := by
  apply BitVec.eq_of_toNat_eq
  rw [hi32_toNat, BitVec.toNat_setWidth, BitVec.toNat_ushiftRight, Nat.shiftRight_eq_div_pow]
  have hv := v.isLt
  omega

theorem lo32_eq_setWidth (v : DWord) : lo32 v = v.setWidth 32 :=
  BitVec.eq_of_toNat_eq ((lo32_toNat v).trans (BitVec.toNat_setWidth 32 v).symm)

/-- R108: both words are incremented on the one comparison, made before either. -/
theorem correct_eq_ite (x c : Word) :
    correct x c = (if x < c then x + 1 else x, if x < c then c + 1 else c) := by
  by_cases h : x < c
  · rw [if_pos h, if_pos h, correct_of_ovf h]
  · rw [if_neg h, if_neg h, correct_of_not_ovf h]

/-! ### DRAW: the datapath on integers (41_draw.md R109, R112, R113, R116) -/

/-- R112: the fold of two words falls below the second exactly when their sum carries out of 32 bits. -/
theorem ovf_fold_iff (t : DWord) (c : Word) :
    ovf (fold t c) c = true ↔ (lo32 t).toNat + c.toNat ≥ 2 ^ 32 := by
  have hc := c.isLt
  rw [ovf_eq, decide_eq_true_iff, fold_toNat, lo32_toNat]
  omega

theorem ovf_fold_of_lt {t : DWord} {c : Word} (h : (lo32 t).toNat + c.toNat < 2 ^ 32) : ovf (fold t c) c = false :=
  Bool.eq_false_iff.2 (mt (ovf_fold_iff t c).1 (Nat.not_le_of_lt h))

/-- The carry out of the fold of a multiply-accumulate result, as a number (R112). -/
def carryOut (q c : Word) : Nat :=
  if (lo32 (mac q c)).toNat + (hi32 (mac q c)).toNat ≥ 2 ^ 32 then 1 else 0

theorem carryOut_of_ge {q c : Word} (h : (lo32 (mac q c)).toNat + (hi32 (mac q c)).toNat ≥ 2 ^ 32) :
    carryOut q c = 1 := if_pos h

theorem carryOut_of_lt {q c : Word} (h : (lo32 (mac q c)).toNat + (hi32 (mac q c)).toNat < 2 ^ 32) :
    carryOut q c = 0 := if_neg (Nat.not_le_of_lt h)

/-- R109 (c): where the correction fires, neither increment wraps. -/
theorem corrected_toNat {q c : Word} (h : (lo32 (mac q c)).toNat + (hi32 (mac q c)).toNat ≥ 2 ^ 32) :
    (fold (mac q c) (hi32 (mac q c))).toNat ≤ 18781 ∧
      (fold (mac q c) (hi32 (mac q c)) + 1).toNat = (fold (mac q c) (hi32 (mac q c))).toNat + 1 ∧
      (hi32 (mac q c) + 1).toNat = (hi32 (mac q c)).toNat + 1 := by
  have hhi := (hi32_mac_bounds q c).1
  have hlo := (lo32 (mac q c)).isLt
  have hx : (fold (mac q c) (hi32 (mac q c))).toNat ≤ 18781 := by
    rw [fold_toNat, ← lo32_toNat]
    omega
  exact ⟨hx, BitVec.toNat_add_of_lt (show _ + 1 < 2 ^ 32 by omega),
    BitVec.toNat_add_of_lt (show _ + 1 < 2 ^ 32 by omega)⟩

/-- R112: steps 3 to 5 together, on integers. -/
theorem correct_fold_mac (q c : Word) :
    (drawX q c).toNat = ((lo32 (mac q c)).toNat + (hi32 (mac q c)).toNat + carryOut q c) % 2 ^ 32 ∧
      (drawWord q c).1.toNat = (hi32 (mac q c)).toNat + carryOut q c := by
  have hx := fold_toNat (mac q c) (hi32 (mac q c))
  rw [← lo32_toNat] at hx
  have hlo := (lo32 (mac q c)).isLt
  have hhi := (hi32 (mac q c)).isLt
  rw [drawX, drawWord]
  rcases Nat.lt_or_ge ((lo32 (mac q c)).toNat + (hi32 (mac q c)).toNat) (2 ^ 32) with h | h
  · rw [carryOut_of_lt h, correct_of_not_ovf (by omega)]
    exact ⟨hx, rfl⟩
  · obtain ⟨-, hx1, hhi1⟩ := corrected_toNat h
    rw [carryOut_of_ge h, correct_of_ovf (by omega)]
    refine ⟨?_, hhi1⟩
    rw [hx1, hx]
    omega

/-- Settles O15: the steps 3 to 5 on integers, and where they carry out the sum is less than `2^32 + 18782`. -/
theorem correctionFiresOnCarryOut : Obligations.CorrectionFiresOnCarryOut := by
  intro q c
  obtain ⟨hx, hcarry⟩ := correct_fold_mac q c
  refine ⟨ovf_fold_iff _ _, hx, hcarry, fun hfires => ?_⟩
  have hhi := (hi32_mac_bounds q c).1
  have hlo := (lo32 (mac q c)).isLt
  rw [carryOut_of_ge hfires] at hx
  omega

theorem mac_eq_hi_lo (q c : Word) :
    18782 * q.toNat + c.toNat = (hi32 (mac q c)).toNat * 2 ^ 32 + (lo32 (mac q c)).toNat := by
  rw [← mac_toNat, hi32_toNat, lo32_toNat, Nat.div_add_mod']

/-- Settles O14: all bounds are arithmetic on `t = 18782 q + c`, its two halves and the carry out of the fold. -/
theorem datapathBounds : Obligations.DatapathBounds := by
  refine ⟨fun q c => ?_, fun _ => show 18782 < carry0.toNat by decide⟩
  have hq := q.isLt
  have hc := c.isLt
  have hT := mac_eq_hi_lo q c
  have hhi := (hi32_mac_bounds q c).1
  have hlo := (lo32 (mac q c)).isLt
  refine ⟨mac_toNat q c, ?_, ?_, hhi, ?_, fun hfires => ?_, fun hmax => ?_, drawWord_carry_le q c, fun hleft => ?_⟩
  · rw [mac_toNat]; omega
  · rw [mac_toNat]; omega
  · omega
  · obtain ⟨hx, hx1, hhi1⟩ := corrected_toNat ((ovf_fold_iff _ _).1 hfires)
    exact ⟨hx, hx1, hhi1, by omega⟩
  · exact ⟨by omega, ovf_fold_of_lt (by omega)⟩
  · rw [(correct_fold_mac q c).2] at hleft
    rcases Nat.lt_or_ge ((lo32 (mac q c)).toNat + (hi32 (mac q c)).toNat) (2 ^ 32) with h | h
    · rw [carryOut_of_lt h] at hleft
      exact .inl ⟨hleft, ovf_fold_of_lt h⟩
    · rw [carryOut_of_ge h] at hleft
      exact .inr ⟨by omega, (ovf_fold_iff _ _).2 h⟩

/-- R116: the exact identity of every DRAW on the words it reads and leaves. -/
theorem drawWord_recurrence (q c : Word) :
    18782 * q.toNat + c.toNat = (drawWord q c).1.toNat * (2 ^ 32 - 1) + (drawX q c).toNat := by
  obtain ⟨hx, hcarry⟩ := correct_fold_mac q c
  have hT := mac_eq_hi_lo q c
  have hhi := (hi32_mac_bounds q c).1
  have hlo := (lo32 (mac q c)).isLt
  rw [hcarry, Nat.mul_sub_one]
  rcases Nat.lt_or_ge ((lo32 (mac q c)).toNat + (hi32 (mac q c)).toNat) (2 ^ 32) with h | h
  · rw [carryOut_of_lt h] at hx ⊢
    omega
  · rw [carryOut_of_ge h] at hx ⊢
    omega

/-- R116: the remainder is not fully reduced. -/
theorem drawX_eq_max {q c : Word} (h : (hi32 (mac q c)).toNat + (lo32 (mac q c)).toNat = 2 ^ 32 - 1) :
    (drawX q c).toNat = 2 ^ 32 - 1 := by
  rw [(correct_fold_mac q c).1, carryOut_of_lt (by omega)]
  omega

/-- R110 on integers. -/
theorem complement_toInt (x : Word) : ((complement x).toNat : Int) = ((0xfffffffe : Int) - x.toNat) % 2 ^ 32 := by
  have hx := x.isLt
  rw [complement_toNat]
  omega

theorem complement_eq_ofInt (x : Word) : complement x = BitVec.ofInt 32 ((0xfffffffe : Int) - x.toNat) := by
  have hx := complement_toInt x
  apply BitVec.eq_of_toNat_eq
  simp only [BitVec.toNat_ofInt, Nat.cast_pow, Nat.cast_ofNat]
  omega

/-- R113: the datapath computes `core`. -/
theorem drawWord_eq_cmwcCore (q c : Word) : drawWord q c = cmwcCore q c := by
  obtain ⟨hx, hcarry⟩ := correct_fold_mac q c
  simp only [carryOut, hi32_toNat, lo32_toNat, mac_toNat] at hx hcarry
  refine Prod.ext ?_ ?_
  · rw [← BitVec.setWidth_eq (drawWord q c).1, ← BitVec.ofNat_toNat, hcarry]
    rfl
  · rw [drawWord_snd, complement_eq_ofInt, hx]
    rfl

end Sys2Proof.Machine

/-! ### DRAW: the state it leaves (41_draw.md R100 to R103, R113, R116) -/

namespace Sys2Proof.Machine

/-- R100, R101: what a DRAW executed in `s` leaves in `t`. -/
structure State.Drawn (s t : State) : Prop where
  cursor : t.cursor = nextCursor s.cursor
  carry : t.carry = (drawWord (s.table.read t.cursor) s.carry).1
  entry : t.table.read t.cursor = complement (drawX (s.table.read t.cursor) s.carry)
  poison : t.poison = false
  phase : t.phase = .idle
  answered : ∀ o rq, Canonical idleStatus s.cfg.nReq s.requesters → s.owner = some o →
    s.status o = .executing rq → t.status o = .answered rq (.okWord (t.table.read t.cursor))

/-- A healthy engine completes DRAW. -/
theorem draw_completes {s : State} (h : s.poison = false) (hwf : s.table.wf) :
    ∃ t, exec .draw s = .next t ∧ s.Drawn t := by
  let t := (s.withGen s.gen.draw.1).finishWith (.okWord s.gen.draw.2)
  have hgen : t.gen = s.gen.draw.1 := State.gen_finishWith _ _
  have hcursor : t.cursor = nextCursor s.cursor := congrArg Gen.cursor hgen
  have hword : t.table.read t.cursor = s.gen.draw.2 := by
    rw [← State.gen_table, ← State.gen_cursor, hgen]
    exact Gen.draw_read hwf
  refine ⟨t, exec_healthy .draw h, hcursor, ?_, ?_, (State.finishWith_poison _ _).trans h,
    State.finishWith_phase _ _, fun o rq hcanonical howner hexec => ?_⟩
  · rw [hcursor]
    exact congrArg Gen.carry hgen
  · rw [hword, hcursor]
    exact drawWord_snd _ _
  · rw [hword]
    exact State.status_respond_executing (s := s.withGen s.gen.draw.1) hcanonical.1 howner hexec _

/-- Settles O11: the entry, the carry and `x` of the draw on integers. -/
theorem drawComputesCore : Obligations.DrawComputesCore := by
  intro s h hwf
  obtain ⟨t, hexec, hdrawn⟩ := draw_completes h hwf
  obtain ⟨hx, hcarry⟩ := correct_fold_mac (s.table.read t.cursor) s.carry
  simp only [carryOut, hi32_toNat, lo32_toNat, mac_toNat] at hx hcarry
  refine ⟨t, hexec, ?_, ⟨?_, ?_⟩, hdrawn.poison, hdrawn.phase, hdrawn.answered⟩
  · rw [hdrawn.cursor, nextCursor_toNat]
  · rw [hdrawn.carry]
    exact hcarry
  · rw [hdrawn.entry, complement_toInt, hx]

/-- R102: steps 2 to 5 on words, the comparison and both increments made with the carry of step 3. -/
theorem drawWord_steps (q c : Word) :
    let T : DWord := 18782#64 * q.setWidth 64 + c.setWidth 64
    let carry1 : Word := (T >>> 32).setWidth 32
    let x1 : Word := (T + carry1.setWidth 64).setWidth 32
    drawX q c = (if x1 < carry1 then x1 + 1#32 else x1) ∧
      (drawWord q c).1 = if x1 < carry1 then carry1 + 1#32 else carry1 := by
  intro T carry1 x1
  have hcarry1 : hi32 (mac q c) = carry1 := hi32_eq_shift T
  have hx1 : fold (mac q c) carry1 = x1 := lo32_eq_setWidth _
  rw [drawX, drawWord, hcarry1, hx1, correct_eq_ite]
  exact ⟨rfl, rfl⟩

/-- Settles O12: the steps of the datapath on words, and the entry read and written at the incremented cursor. -/
theorem drawFollowsItsNumberedSteps : Obligations.DrawFollowsItsNumberedSteps := by
  intro s h hwf
  obtain ⟨t, hexec, hdrawn⟩ := draw_completes h hwf
  obtain ⟨hcursor, hcarry, hentry, -, -, hanswered⟩ := hdrawn
  rw [show t.cursor = s.cursor + 1 from hcursor] at hcarry hentry hanswered
  obtain ⟨hx2, hcarry2⟩ := drawWord_steps (s.table.read (s.cursor + 1)) s.carry
  rw [hcarry2] at hcarry
  rw [hx2] at hentry
  rw [hentry] at hanswered
  exact ⟨t, hexec, hcursor, hcarry, hentry, hanswered⟩

/-- Settles O16: the identity of the words that the draw reads and leaves. -/
theorem everyDrawSatisfiesTheRecurrence : Obligations.EveryDrawSatisfiesTheRecurrence := by
  refine ⟨fun s h hwf => ?_, fun _ _ => drawX_eq_max⟩
  obtain ⟨t, hexec, hdrawn⟩ := draw_completes h hwf
  refine ⟨t, hexec, Nat.le_sub_one_of_lt (BitVec.isLt _), ?_, ?_, fun hmax => ?_⟩
  · rw [hdrawn.carry]
    exact drawWord_recurrence _ _
  · rw [hdrawn.entry]
    exact complement_toInt _
  · rw [hdrawn.entry, BitVec.eq_of_toNat_eq (y := 0xffffffff#32) hmax]
    rfl

/-! ### DRAW: the lagged recurrence (41_draw.md R114) -/

theorem Gen.after_wf (seed : Word) (n : Nat) : (Gen.after seed n).table.wf := by
  induction n with
  | zero => exact seedTable_wf seed
  | succ n ih => exact effectOf_wf .draw ih

/-- Draw number `n + 1` uses index `n mod 4096`. -/
theorem Gen.after_nextCursor (seed : Word) (n : Nat) :
    nextCursor (Gen.after seed n).cursor = BitVec.ofNat 12 n := by
  apply BitVec.eq_of_toNat_eq
  rw [nextCursor_toNat, Gen.after_cursor, BitVec.toNat_ofNat]
  omega

/-- The entry that draw number `n + 1` leaves there is the word it returns. -/
theorem Gen.after_read_word (seed : Word) (n : Nat) :
    (Gen.after seed (n + 1)).table.read (BitVec.ofNat 12 n) = Gen.wordAfter seed n := by
  rw [← Gen.after_nextCursor seed n]
  exact Gen.draw_read (Gen.after_wf seed n)

/-- An entry that none of the next `k` DRAWs uses stays; by induction on them. -/
theorem Gen.after_read_unused (seed : Word) (n k : Nat) {j : Index}
    (h : ∀ i, n ≤ i → i < n + k → j ≠ BitVec.ofNat 12 i) :
    (Gen.after seed (n + k)).table.read j = (Gen.after seed n).table.read j := by
  induction k with
  | zero => rfl
  | succ k ih =>
    have hunused : j ≠ nextCursor (Gen.after seed (n + k)).cursor := by
      rw [Gen.after_nextCursor]
      exact h (n + k) (by omega) (by omega)
    exact (Gen.draw_read_other _ hunused).trans (ih fun i hlo hhi => h i hlo (by omega))

theorem index_ofNat_ne_of_lt {i j : Nat} (h : i < j) (hlag : j < i + lag) : BitVec.ofNat 12 j ≠ BitVec.ofNat 12 i :=
  fun e => by
    have := congrArg BitVec.toNat e
    simp only [BitVec.toNat_ofNat, lag] at this hlag
    omega

/-- The lag: 4096 draws later the same index is used, with no other use in between. -/
theorem Gen.after_read_lagged (seed : Word) (k : Nat) :
    (Gen.after seed (k + lag)).table.read (BitVec.ofNat 12 (k + lag)) = Gen.wordAfter seed k := by
  have hindex : BitVec.ofNat 12 (k + lag) = BitVec.ofNat 12 k :=
    BitVec.eq_of_toNat_eq (by simp [lag])
  rw [show k + lag = k + 1 + 4095 from rfl] at hindex ⊢
  rw [hindex, Gen.after_read_unused seed (k + 1) 4095 fun i hlo hhi =>
    (index_ofNat_ne_of_lt (by omega) (by simp only [lag]; omega)).symm]
  exact Gen.after_read_word seed k

/-- Settles O18: below the lag no draw has used the index yet, from there on the draw of one lag before was the
last to. -/
theorem laggedRecurrence : Obligations.LaggedRecurrence := by
  intro seed n
  refine ⟨?_, Gen.after_read_word seed n, fun hn => ?_, fun hn => ?_⟩
  · rw [Gen.after_cursor]
    omega
  · have hunused := Gen.after_read_unused seed 0 n fun i _ hi =>
      index_ofNat_ne_of_lt (j := n) (by omega) (by simp only [lag]; omega)
    rwa [Nat.zero_add] at hunused
  · obtain ⟨k, rfl⟩ : ∃ k, n = k + lag := ⟨n - 4096, by simp only [lag]; omega⟩
    have hread := Gen.after_read_lagged seed k
    rw [show k + lag - 4096 = k by simp only [lag]; omega]
    refine ⟨hread, ?_⟩
    rw [← hread, ← drawWord_eq_cmwcCore, Gen.wordAfter, Gen.draw_word, Gen.after_nextCursor]

/-! ### DRAW: what leaves the engine (41_draw.md R101) -/

/-- A response does not look at the generator state. -/
theorem State.respond_withGen (s : State) (g : Gen) (resp : Response) :
    (s.withGen g).respond resp = (s.respond resp).withGen g := by
  unfold State.respond
  rw [State.withGen_owner]
  cases s.owner <;> rfl

theorem State.finishWith_withGen (s : State) (g : Gen) (resp : Response) :
    (s.withGen g).finishWith resp = (s.finishWith resp).withGen g := by
  rw [State.finishWith, State.respond_withGen]
  rfl

/-- Settles O37: a refusal looks at no generator state, and the response of an executed command is the same by
hypothesis or has no word. -/
theorem onlyTheDrawnWordLeavesTheEngine : Obligations.OnlyTheDrawnWordLeavesTheEngine := by
  intro i s g hword
  cases hpoison : s.poison with
  | true =>
    exact ⟨s.takeFatal, g, exec_poisoned i hpoison,
      (exec_poisoned (s := s.withGen g) i hpoison).trans (congrArg _ (State.respond_withGen s g .fatal))⟩
  | false =>
    have hresp : (effectOf i g).2 = (effectOf i s.gen).2 := by
      cases i with
      | draw => exact congrArg Response.okWord (hword hpoison rfl).symm
      | seed a => rfl
    refine ⟨_, (effectOf i g).1, exec_healthy i hpoison, ?_⟩
    rw [exec_healthy (s := s.withGen g) i hpoison, State.gen_withGen, hresp, State.finishWith_withGen,
      State.finishWith_withGen, State.finishWith_withGen]
    rfl

/-! ### DRAW: its phases (41_draw.md R111) -/

/-- Settles O41: the start of a command on a healthy and on a poisoned engine, and then one phase after another. -/
theorem drawPhasesInOrder : Obligations.DrawPhasesInOrder := by
  intro s q x T r rq
  refine ⟨fun hdraw h => ?start, fun _ h => ?refused, fun hp => ?adv, fun hp => ?read, fun hp => ?mac,
    fun hp => ?carry, fun hp => ?fold, fun hp => ⟨fun hlt => ?fires, fun hge => ?fits⟩, fun hp => ?write,
    fun hp => ?resp⟩
  case start => rw [State.startPhases_healthy r rq h, hdraw]; rfl
  case refused => rw [State.startPhases_poisoned r rq h, State.takeFatal_phase, State.grant_phase]
  case adv => simp only [State.tick, hp, nextCursor_toNat, and_self]
  case mac => exact ⟨mac q s.carry, by simp only [State.tick, hp], mac_toNat q s.carry⟩
  case carry => simp only [State.tick, hp, hi32_toNat, and_self]
  case fold =>
    refine ⟨fold T s.carry, by simp only [State.tick, hp], ?_⟩
    rw [fold_toNat, Nat.mod_add_mod]
  case fires => simp only [State.tick, hp, correct_of_ovf hlt]; exact ⟨rfl, rfl⟩
  case fits => simp only [State.tick, hp, correct_of_not_ovf hge, and_self]
  case write => simp only [State.tick, hp]; exact ⟨trivial, rfl⟩
  all_goals simp only [State.tick, hp]

end Sys2Proof.Machine

/-! ### DRAWD: the bits of a binary64 value (42_drawd.md R131) -/

namespace Sys2Proof.Machine

/-- The three fields of a bit pattern that is put together from an exponent field and a fraction. -/
theorem binary64_fields {e f : Nat} (he : e < 2 ^ 11) (hf : f < 2 ^ 52) :
    (BitVec.ofNat 64 (e * 2 ^ 52 + f)).getMsbD 0 = false ∧
      ((BitVec.ofNat 64 (e * 2 ^ 52 + f)).extractLsb' 52 11).toNat = e ∧
      ((BitVec.ofNat 64 (e * 2 ^ 52 + f)).extractLsb' 0 52).toNat = f := by
  have htoNat : (BitVec.ofNat 64 (e * 2 ^ 52 + f)).toNat = e * 2 ^ 52 + f := by
    rw [BitVec.toNat_ofNat]
    omega
  refine ⟨?_, ?_, ?_⟩
  · rw [← BitVec.msb, BitVec.msb_eq_decide, htoNat, decide_eq_false_iff_not]
    omega
  · rw [BitVec.extractLsb'_toNat, htoNat, Nat.shiftRight_eq_div_pow]
    omega
  · rw [BitVec.extractLsb'_toNat, htoNat, Nat.shiftRight_zero]
    omega

/-- What a normal number's exponent field and fraction stand for. -/
theorem binary64_normal {e f : Nat} (hpos : 0 < e) (he : e < 2047) (hf : f < 2 ^ 52) :
    binary64Finite (BitVec.ofNat 64 (e * 2 ^ 52 + f)) = true ∧
      binary64Value (BitVec.ofNat 64 (e * 2 ^ 52 + f)) = (2 ^ 52 + f : Nat) * (2 : ℚ) ^ ((e : Int) - 1075) := by
  obtain ⟨hsign, hexponent, hfraction⟩ := binary64_fields (show e < 2 ^ 11 by omega) hf
  constructor
  · rw [binary64Finite, hexponent]
    simpa using he.ne
  · simp only [binary64Value, hsign, hexponent, hfraction]
    rw [if_neg hpos.ne', if_neg Bool.false_ne_true, one_mul]

/-- The same where the fraction may also be `2^52`, which carries into the exponent field: then the significand is
`2^53`. -/
theorem binary64_carried {e f : Nat} (hpos : 0 < e) (he : e < 2046) (hf : f ≤ 2 ^ 52) :
    binary64Finite (BitVec.ofNat 64 (e * 2 ^ 52 + f)) = true ∧
      binary64Value (BitVec.ofNat 64 (e * 2 ^ 52 + f)) = (2 ^ 52 + f : Nat) * (2 : ℚ) ^ ((e : Int) - 1075) := by
  rcases hf.lt_or_eq with hlt | rfl
  · exact binary64_normal hpos (by omega) hlt
  · obtain ⟨hfinite, hvalue⟩ := binary64_normal (f := 0) (Nat.succ_pos e) (by omega) (by decide)
    rw [show (e + 1) * 2 ^ 52 + 0 = e * 2 ^ 52 + 2 ^ 52 by ring] at hfinite hvalue
    refine ⟨hfinite, hvalue.trans ?_⟩
    rw [show ((e + 1 : Nat) : Int) - 1075 = (e : Int) - 1075 + 1 by push_cast; ring, zpow_add_one₀ two_ne_zero]
    push_cast
    ring

theorem binary64Finite_zero : binary64Finite 0#64 = true := rfl

theorem binary64Value_zero : binary64Value 0#64 = 0 := by simp [binary64Value]

/-- Every bit pattern stands for an integer of at most 53 bits times a power of two. -/
theorem binary64Value_eq_int_mul_zpow (b : DWord) :
    ∃ s e : Int, |s| < 2 ^ 53 ∧ binary64Value b = s * (2 : ℚ) ^ e := by
  obtain ⟨sign, hsign, habs⟩ : ∃ sign : Int, (if b.getMsbD 0 then (-1 : ℚ) else 1) = sign ∧ |sign| = 1 := by
    by_cases hneg : b.getMsbD 0
    · exact ⟨-1, by simp [hneg], rfl⟩
    · exact ⟨1, by simp [hneg], rfl⟩
  have hfraction : (b.extractLsb' 0 52).toNat < 2 ^ 52 := BitVec.isLt _
  have hbound : ∀ n : Nat, n < 2 ^ 53 → |sign * n| < 2 ^ 53 := fun n hn => by
    rw [abs_mul, habs, one_mul, Nat.abs_cast]
    exact_mod_cast hn
  simp only [binary64Value, hsign]
  split
  · exact ⟨sign * (b.extractLsb' 0 52).toNat, -1074, hbound _ (by omega), by rw [Int.cast_mul, Int.cast_natCast]⟩
  · exact ⟨sign * (2 ^ 52 + (b.extractLsb' 0 52).toNat : Nat), _, hbound _ (by omega),
      by rw [Int.cast_mul, Int.cast_natCast]⟩

/-- Between a binary64 value and a number of at least `2^52 / 2^k` lies a multiple of `1 / 2^k`: the value itself, or,
if it is finer, `2^52 / 2^k`. -/
theorem exists_multiple_as_near (b : DWord) (k : Nat) {x : ℚ} (hx : 2 ^ 52 / 2 ^ k ≤ x) :
    ∃ z : Int, |(z : ℚ) / 2 ^ k - x| ≤ |binary64Value b - x| := by
  obtain ⟨s, e, hs, hvalue⟩ := binary64Value_eq_int_mul_zpow b
  rcases le_or_gt 0 (e + k) with hcoarse | hfine
  · obtain ⟨j, hj⟩ := Int.eq_ofNat_of_zero_le hcoarse
    refine ⟨s * 2 ^ j, le_of_eq ?_⟩
    rw [hvalue, show e = (j : Int) - k by omega, zpow_sub₀ two_ne_zero, zpow_natCast, zpow_natCast]
    push_cast
    rw [mul_div_assoc]
  · have hsmall : binary64Value b ≤ 2 ^ 52 / 2 ^ k := by
      have hs' : (s : ℚ) ≤ 2 ^ 53 := by exact_mod_cast ((le_abs_self s).trans hs.le)
      calc binary64Value b = s * (2 : ℚ) ^ e := hvalue
        _ ≤ 2 ^ 53 * (2 : ℚ) ^ e := by gcongr
        _ ≤ 2 ^ 53 * (2 : ℚ) ^ (-(k : Int) - 1) := by
          gcongr
          · norm_num
          · omega
        _ = 2 ^ 52 / 2 ^ k := by
          rw [zpow_sub_one₀ two_ne_zero, zpow_neg, zpow_natCast]
          ring
    refine ⟨2 ^ 52, ?_⟩
    push_cast
    rw [abs_of_nonpos (by linarith), abs_of_nonpos (by linarith)]
    linarith

/-! ### DRAWD: rounding a quotient to an integer (42_drawd.md R132) -/

/-- The quotient `n / d` rounded to an integer, as `binary64Quotient` rounds the significand. -/
def roundedQuotient (mode : Rounding) (n d : Nat) : Nat :=
  if roundsUp mode (n / d) (n % d) d then n / d + 1 else n / d

theorem roundedQuotient_bounds (mode : Rounding) (n d : Nat) :
    n / d ≤ roundedQuotient mode n d ∧ roundedQuotient mode n d ≤ n / d + 1 := by
  unfold roundedQuotient
  split <;> omega

/-- No direction moves an exact quotient. -/
theorem roundsUp_zero (mode : Rounding) (q : Nat) {d : Nat} (hd : 0 < d) : roundsUp mode q 0 d = false := by
  cases mode <;> simp [roundsUp, hd.ne, hd.ne']

theorem roundedQuotient_of_dvd (mode : Rounding) {n d : Nat} (hd : 0 < d) (h : d ∣ n) :
    roundedQuotient mode n d = n / d := by
  rw [roundedQuotient, Nat.mod_eq_zero_of_dvd h, roundsUp_zero mode _ hd]
  rfl

/-- With a larger remainder every direction still rounds up. -/
theorem roundsUp_mono (mode : Rounding) (q d : Nat) {r r' : Nat} (hr : r ≤ r') (hd : r' < d)
    (h : roundsUp mode q r d = true) : roundsUp mode q r' d = true := by
  cases mode with
  | nearestEven =>
    simp only [roundsUp, Bool.or_eq_true, Bool.and_eq_true, decide_eq_true_eq] at h ⊢
    rcases h with h | ⟨h, hodd⟩
    · exact .inl (by omega)
    · rcases hr.lt_or_eq with hlt | rfl
      · exact .inl (by omega)
      · exact .inr ⟨h, hodd⟩
  | nearestAway => simp only [roundsUp, decide_eq_true_eq] at h ⊢; omega
  | upward => simp only [roundsUp, decide_eq_true_eq] at h ⊢; omega
  | towardZero => exact h
  | downward => exact h

theorem roundedQuotient_mono (mode : Rounding) {n n' d : Nat} (hd : 0 < d) (h : n ≤ n') :
    roundedQuotient mode n d ≤ roundedQuotient mode n' d := by
  rcases (Nat.div_le_div_right (c := d) h).lt_or_eq with hlt | heq
  · calc roundedQuotient mode n d ≤ n / d + 1 := (roundedQuotient_bounds mode n d).2
      _ ≤ n' / d := hlt
      _ ≤ roundedQuotient mode n' d := (roundedQuotient_bounds mode n' d).1
  · have hmod : n % d ≤ n' % d := by
      have hn := Nat.div_add_mod n d
      have hn' := Nat.div_add_mod n' d
      rw [heq] at hn
      omega
    unfold roundedQuotient
    rw [← heq]
    split
    · next hup => rw [if_pos (roundsUp_mono mode _ d hmod (Nat.mod_lt _ hd) hup)]
    · split <;> omega

/-- To nearest, the remainder or its complement is left over, whichever is at most the other. -/
theorem roundedQuotient_nearestEven (n d : Nat) :
    roundedQuotient .nearestEven n d = n / d ∧ 2 * (n % d) ≤ d ∨
      roundedQuotient .nearestEven n d = n / d + 1 ∧ d ≤ 2 * (n % d) := by
  have hiff : roundsUp .nearestEven (n / d) (n % d) d = true ↔
      d < 2 * (n % d) ∨ 2 * (n % d) = d ∧ n / d % 2 = 1 := by simp [roundsUp]
  unfold roundedQuotient
  split
  · next hup =>
    have := hiff.1 hup
    exact .inr ⟨rfl, by omega⟩
  · next hdown =>
    have := mt hiff.2 hdown
    exact .inl ⟨rfl, by omega⟩

/-- To nearest, no integer is nearer the quotient. -/
theorem roundedQuotient_nearest (n : Nat) {d : Nat} (hd : 0 < d) (z : Int) :
    |(roundedQuotient .nearestEven n d * d - n : Int)| ≤ |z * d - n| := by
  have hn : (n / d : Nat) * (d : Int) + (n % d : Nat) = n := by exact_mod_cast Nat.div_add_mod' n d
  have hr : n % d < d := Nat.mod_lt n hd
  have hz : z * d ≤ (n / d : Nat) * (d : Int) ∨ (n / d : Nat) * (d : Int) + d ≤ z * d := by
    rcases le_or_gt z (n / d : Nat) with hle | hgt
    · exact .inl (by gcongr)
    · exact .inr (by rw [← add_one_mul]; gcongr; omega)
  have hround := roundedQuotient_nearestEven n d
  generalize n / d = q, n % d = r at hn hr hz hround
  rcases hround with ⟨heq, hhalf⟩ | ⟨heq, hhalf⟩ <;> rw [heq]
  · rw [abs_of_nonpos (by omega), le_abs]
    omega
  · push_cast
    rw [add_one_mul, abs_of_nonneg (by omega), le_abs]
    omega

/-! ### DRAWD: the scale of a quotient and its bits (42_drawd.md R130 to R132) -/

/-- A search that starts below `2^53 * d` ends at the power of two that puts the quotient's leading bit at
position 52. -/
theorem scaleFrom_spec {n d fuel k : Nat} (hlt : n * 2 ^ k < 2 ^ 53 * d) (hle : 2 ^ 52 * d ≤ n * 2 ^ (k + fuel)) :
    scaleFrom n d fuel k ≤ k + fuel ∧ 2 ^ 52 * d ≤ n * 2 ^ scaleFrom n d fuel k ∧
      n * 2 ^ scaleFrom n d fuel k < 2 ^ 53 * d := by
  induction fuel generalizing k with
  | zero => exact ⟨le_rfl, hle, hlt⟩
  | succ fuel ih =>
    rw [scaleFrom]
    split
    · next hfound => exact ⟨by omega, hfound, hlt⟩
    · rw [show k + (fuel + 1) = k + 1 + fuel by omega] at hle ⊢
      exact ih (by rw [pow_succ, ← mul_assoc]; omega) hle

/-- A positive quotient in the range that `binary64Quotient` is for: at least `2^-32` and below `2^53`. -/
structure QuotientInRange (n d : Nat) : Prop where
  pos : 0 < d
  low : d ≤ n * 2 ^ 32
  high : n < 2 ^ 53 * d

/-- The power of two by which `binary64Quotient` scales the quotient `n / d`. -/
def scaleOf (n d : Nat) : Nat := scaleFrom n d 85 0

/-- The significand of the value of `n / d`. -/
def significandOf (mode : Rounding) (n d : Nat) : Nat := roundedQuotient mode (n * 2 ^ scaleOf n d) d

theorem binary64Quotient_of_ne_zero (mode : Rounding) {n : Nat} (d : Nat) (h : n ≠ 0) :
    binary64Quotient mode n d =
      BitVec.ofNat 64 ((1075 - scaleOf n d) * 2 ^ 52 + (significandOf mode n d - 2 ^ 52)) := if_neg h

namespace QuotientInRange

variable {n d : Nat}

theorem ne_zero (h : QuotientInRange n d) : n ≠ 0 := by
  rintro rfl
  have := h.pos
  have := h.low
  omega

theorem scaleOf_spec (h : QuotientInRange n d) :
    scaleOf n d ≤ 85 ∧ 2 ^ 52 * d ≤ n * 2 ^ scaleOf n d ∧ n * 2 ^ scaleOf n d < 2 ^ 53 * d := by
  have := h.low
  exact scaleFrom_spec (by simpa using h.high) (by omega)

theorem significandOf_bounds (h : QuotientInRange n d) (mode : Rounding) :
    2 ^ 52 ≤ significandOf mode n d ∧ significandOf mode n d ≤ 2 ^ 53 := by
  obtain ⟨-, hlow, hhigh⟩ := h.scaleOf_spec
  have hround := roundedQuotient_bounds mode (n * 2 ^ scaleOf n d) d
  exact ⟨((Nat.le_div_iff_mul_le h.pos).2 hlow).trans hround.1,
    hround.2.trans ((Nat.div_lt_iff_lt_mul h.pos).2 hhigh)⟩

/-- The bits of the quotient stand for the rounded significand over the scale. -/
theorem binary64Quotient_spec (h : QuotientInRange n d) (mode : Rounding) :
    binary64Finite (binary64Quotient mode n d) = true ∧
      binary64Value (binary64Quotient mode n d) = (significandOf mode n d : ℚ) / 2 ^ scaleOf n d := by
  have hscale := h.scaleOf_spec.1
  obtain ⟨hlow, hhigh⟩ := h.significandOf_bounds mode
  rw [binary64Quotient_of_ne_zero mode d h.ne_zero]
  obtain ⟨hfinite, hvalue⟩ := binary64_carried (e := 1075 - scaleOf n d) (f := significandOf mode n d - 2 ^ 52)
    (by omega) (by omega) (by omega)
  refine ⟨hfinite, hvalue.trans ?_⟩
  rw [Nat.add_sub_cancel' hlow, show ((1075 - scaleOf n d : Nat) : Int) - 1075 = -scaleOf n d by omega, zpow_neg,
    zpow_natCast, div_eq_mul_inv]

/-- A quotient that is an integer is not rounded. -/
theorem binary64Value_of_dvd (h : QuotientInRange n d) (mode : Rounding) (hdvd : d ∣ n) :
    binary64Value (binary64Quotient mode n d) = (n / d : Nat) := by
  rw [(h.binary64Quotient_spec mode).2, significandOf, roundedQuotient_of_dvd mode h.pos (hdvd.mul_right _),
    Nat.mul_div_right_comm hdvd]
  push_cast
  exact mul_div_cancel_right₀ _ (by positivity)

/-- Rounding is monotone: with equal scales the significands are ordered, and a smaller scale puts every significand
above those of the larger one. -/
theorem binary64Value_mono {n' : Nat} (h : QuotientInRange n d) (h' : QuotientInRange n' d) (mode : Rounding)
    (hle : n ≤ n') : binary64Value (binary64Quotient mode n d) ≤ binary64Value (binary64Quotient mode n' d) := by
  rw [(h.binary64Quotient_spec mode).2, (h'.binary64Quotient_spec mode).2, div_le_div_iff₀ (by positivity)
    (by positivity)]
  norm_cast
  rcases lt_trichotomy (scaleOf n d) (scaleOf n' d) with hlt | heq | hgt
  · have hcontra : n * 2 ^ (scaleOf n d + 1) ≤ n' * 2 ^ scaleOf n' d := by gcongr <;> omega
    rw [pow_succ, ← mul_assoc] at hcontra
    have := h.scaleOf_spec
    have := h'.scaleOf_spec
    omega
  · rw [heq]
    gcongr
    rw [significandOf, significandOf, heq]
    exact roundedQuotient_mono mode h.pos (by gcongr)
  · calc significandOf mode n d * 2 ^ scaleOf n' d ≤ 2 ^ 53 * 2 ^ scaleOf n' d := by
          gcongr
          exact (h.significandOf_bounds mode).2
      _ = 2 ^ 52 * 2 ^ (scaleOf n' d + 1) := by ring
      _ ≤ significandOf mode n' d * 2 ^ scaleOf n d := by
          gcongr
          · exact (h'.significandOf_bounds mode).1
          · norm_num
          · omega

/-- To nearest, no multiple of the significand's unit is nearer the quotient, and so no binary64 value is. -/
theorem binary64Value_nearest (h : QuotientInRange n d) (b : DWord) :
    |binary64Value (binary64Quotient .nearestEven n d) - (n : ℚ) / d| ≤ |binary64Value b - (n : ℚ) / d| := by
  have hd : (0 : ℚ) < d := by exact_mod_cast h.pos
  have hx : (2 : ℚ) ^ 52 / 2 ^ scaleOf n d ≤ (n : ℚ) / d := by
    rw [div_le_div_iff₀ (by positivity) hd]
    exact_mod_cast h.scaleOf_spec.2.1
  obtain ⟨z, hz⟩ := exists_multiple_as_near b (scaleOf n d) hx
  refine le_trans ?_ hz
  have hdistance : ∀ m : ℚ, |m / 2 ^ scaleOf n d - (n : ℚ) / d| =
      |m * d - n * 2 ^ scaleOf n d| / (2 ^ scaleOf n d * d) := fun m => by
    have hpos : (0 : ℚ) < 2 ^ scaleOf n d * d := by positivity
    rw [div_sub_div _ _ (by positivity) hd.ne', abs_div, abs_of_pos hpos, mul_comm (2 ^ scaleOf n d) (n : ℚ)]
  rw [(h.binary64Quotient_spec .nearestEven).2, hdistance, hdistance]
  have hnear := Int.cast_le (R := ℚ).2 (roundedQuotient_nearest (n * 2 ^ scaleOf n d) h.pos z)
  push_cast at hnear
  exact div_le_div_of_nonneg_right hnear (by positivity)

end QuotientInRange

/-! ### DRAWD: the conversion and the division of a word (42_drawd.md R131 to R133) -/

theorem quotientInRange_one {v : Word} (h : v ≠ 0) : QuotientInRange v.toNat 1 := by
  have hpos : v.toNat ≠ 0 := fun e => h (BitVec.eq_of_toNat_eq e)
  have := v.isLt
  exact ⟨one_pos, by omega, by omega⟩

theorem quotientInRange_divisorD {v : Word} (h : v ≠ 0) : QuotientInRange v.toNat divisorD := by
  have hpos : v.toNat ≠ 0 := fun e => h (BitVec.eq_of_toNat_eq e)
  have := v.isLt
  exact ⟨by decide, by rw [divisorD]; omega, by rw [divisorD]; omega⟩

/-- Settles O49: 0 is converted to 0.0, and any other word is an integer quotient by 1. -/
theorem conversionToDoubleIsExact : Obligations.ConversionToDoubleIsExact := by
  intro v
  rcases eq_or_ne v 0 with rfl | hv
  · exact ⟨binary64Finite_zero, binary64Value_zero.trans Nat.cast_zero.symm⟩
  · have hrange := quotientInRange_one hv
    refine ⟨(hrange.binary64Quotient_spec .nearestEven).1, ?_⟩
    rw [wordToDouble, hrange.binary64Value_of_dvd .nearestEven (one_dvd _), Nat.div_one]

theorem divideByD_finite (mode : Rounding) (v : Word) : binary64Finite (divideByD (.ieee mode) v) = true := by
  rcases eq_or_ne v 0 with rfl | hv
  · exact binary64Finite_zero
  · exact ((quotientInRange_divisorD hv).binary64Quotient_spec mode).1

theorem divideByD_zero (mode : Rounding) : binary64Value (divideByD (.ieee mode) 0) = 0 := binary64Value_zero

theorem divideByD_max (mode : Rounding) : binary64Value (divideByD (.ieee mode) 4294967295) = 1 :=
  ((quotientInRange_divisorD (v := 4294967295) (by decide)).binary64Value_of_dvd mode (dvd_refl divisorD)).trans
    Nat.cast_one

theorem divideByD_nonneg (mode : Rounding) (v : Word) : 0 ≤ binary64Value (divideByD (.ieee mode) v) := by
  rcases eq_or_ne v 0 with rfl | hv
  · exact (divideByD_zero mode).ge
  · rw [divideByD, ((quotientInRange_divisorD hv).binary64Quotient_spec mode).2]
    positivity

theorem divideByD_mono (mode : Rounding) {v w : Word} (h : v.toNat ≤ w.toNat) :
    binary64Value (divideByD (.ieee mode) v) ≤ binary64Value (divideByD (.ieee mode) w) := by
  rcases eq_or_ne v 0 with rfl | hv
  · exact (divideByD_zero mode).trans_le (divideByD_nonneg mode w)
  · have hw : w ≠ 0 := by
      rintro rfl
      exact hv (BitVec.eq_of_toNat_eq (Nat.le_zero.1 h))
    exact (quotientInRange_divisorD hv).binary64Value_mono (quotientInRange_divisorD hw) mode h

/-- Settles O50: the upper bound is monotonicity at the largest word. -/
theorem everyIeeeDivisionHasTheFourProperties : Obligations.EveryIeeeDivisionHasTheFourProperties := by
  intro mode
  refine ⟨divideByD_finite mode, fun _ _ => divideByD_mono mode, divideByD_zero mode, divideByD_max mode, fun v =>
    ⟨divideByD_nonneg mode v, ?_⟩⟩
  rw [← divideByD_max mode]
  exact divideByD_mono mode (Nat.le_sub_one_of_lt v.isLt)

/-- Settles O51: the quotient of 0 is exact, and any other is rounded to nearest. -/
theorem defaultDivisionIsNearest : Obligations.DefaultDivisionIsNearest := by
  intro v b _
  rcases eq_or_ne v 0 with rfl | hv
  · rw [divideByD_zero, show ((0 : Word).toNat : ℚ) / (2 ^ 32 - 1) = 0 from by simp, sub_self, abs_zero]
    exact abs_nonneg _
  · rw [show ((2 : ℚ) ^ 32 - 1) = (divisorD : Nat) by norm_num [divisorD]]
    exact (quotientInRange_divisorD hv).binary64Value_nearest b

/-! ### DRAWD: what a requester makes of its response (42_drawd.md R130, 70_reset_and_hazards.md R178) -/

/-- R177 (b), R178: the one outcome of consuming a response. -/
theorem makeMove_consume {s : State} {r : Nat} {rq : Request} {resp : Response} (h : s.status r = .answered rq resp) :
    makeMove s (.consume r) = .next { s.setStatus r .idle with
      received := s.received ++ [{ requester := r, request := rq, response := resp }] } := by
  simp only [makeMove, State.consume, h]

theorem resultOf_ok (division : Division) (rq : Request) : resultOf division rq .ok = .ok := rfl

theorem resultOf_fatal (division : Division) (rq : Request) : resultOf division rq .fatal = .fatal := rfl

theorem resultOf_okWord_drawd (division : Division) (v : Word) :
    resultOf division .drawd (.okWord v) = .double (divideByD division v) := rfl

theorem resultOf_okWord_of_ne_drawd (division : Division) {rq : Request} (h : rq ≠ .drawd) (v : Word) :
    resultOf division rq (.okWord v) = .word v := by
  cases rq with
  | command cw => rfl
  | drawd => exact absurd rfl h

/-- Settles O53: consuming is one write to the requester's own status and one entry at the end of what was received. -/
theorem consumedResponseIsTheResult : Obligations.ConsumedResponseIsTheResult := by
  intro s r rq resp rest hinv hin hanswered
  have hstep := (step_cons hin).trans (makeMove_consume (s := s.withInputs rest) hanswered)
  have hstatus := State.status_setStatus (s := s.withInputs rest) hinv.requesters r .idle
  refine ⟨_, resultOf s.cfg.division rq resp, hstep, rfl, ?received, ?results, (hstatus r).trans (if_pos rfl),
    fun r' hne => ⟨(hstatus r').trans (if_neg hne), ?others⟩, rfl, rfl, rfl, rfl, rfl, rfl, rfl, ?ok, ?fatal,
    ?word⟩
  case received => simp [State.receivedBy]
  case results => simp [State.resultsBy]
  case others => simp [State.receivedBy, hne.symm]
  case ok =>
    rintro rfl
    exact resultOf_ok _ rq
  case fatal =>
    rintro rfl
    exact resultOf_fatal _ rq
  case word =>
    rintro v rfl
    refine ⟨?_, fun hne => resultOf_okWord_of_ne_drawd _ hne v⟩
    rintro rfl
    exact resultOf_okWord_drawd _ v

end Sys2Proof.Machine

/-! ### Exceptions: the one exception, and the move that a step makes (60_exceptions.md R143 to R145) -/

namespace Sys2Proof.Machine

/-- R143: no state but `poison` is read by a refusal. -/
theorem State.takeFatal_withGen (s : State) (g : Gen) : (s.withGen g).takeFatal = s.takeFatal.withGen g :=
  respond_withGen s g .fatal

/-- The move that a step makes is the first one to come, or a phase that no agent asked for. -/
theorem head_iff_move {s : State} {m m' : Move} {rest : List Move}
    (h : s.inputs = m :: rest ∨ s.inputs = [] ∧ m = .tick ∧ rest = []) (hne : m' ≠ .tick) :
    s.inputs.head? = some m' ↔ m = m' := by
  rcases h with hin | ⟨hin, rfl, -⟩
  · rw [hin, List.head?_cons, Option.some.injEq]
  · rw [hin]
    exact ⟨nofun, fun e => absurd e.symm hne⟩

/-- Settles O22: a refusal writes the status of the requester and the owner, and reads `poison` alone. -/
theorem poisonedEngineRefusesEveryCommandWhole : Obligations.PoisonedEngineRefusesEveryCommandWhole := by
  refine ⟨by decide, fun i s hpoison => ⟨s.takeFatal, exec_poisoned i hpoison, State.takeFatal_table s,
    State.takeFatal_carry s, State.takeFatal_cursor s, (State.takeFatal_poison s).trans hpoison,
    State.takeFatal_phase s, fun g => ?_, fun o rq hcanonical howner hexec => ?_⟩⟩
  · rw [exec_poisoned i (s := s.withGen g) hpoison, State.takeFatal_withGen]
  · exact State.status_respond_executing hcanonical.1 howner hexec .fatal

/-- Settles O23: of the two events that write the flag abort sets it. -/
theorem onlyResetClearsPoison : Obligations.OnlyResetClearsPoison := by
  refine ⟨fun s t hpoison hstep hhealthy => ?_, fun i s t hpoison hexec => (exec_keeps_poison hexec).trans hpoison⟩
  rcases step_cases hstep with ⟨_, rfl, _⟩ | ⟨m, rest, hinputs, hmove⟩
  · cases hpoison.symm.trans hhealthy
  · rcases makeMove_poison hmove with hsame | ⟨hreset, rfl⟩ | ⟨_, _, _, rfl⟩
    · cases hpoison.symm.trans (hsame.symm.trans hhealthy)
    · exact ⟨(head_iff_move hinputs (by simp)).2 hreset, State.gen_resetEvent _, rfl⟩
    · cases (State.abortEvent_poison _).symm.trans hhealthy

/-- Settles O38: what a command in execution leaves and answers is a function of the generator state and `poison`. -/
theorem requestersAreInvisibleToTheAlgorithm : Obligations.RequestersAreInvisibleToTheAlgorithm := by
  intro i s s' o o' rq rq' hcanonical hcanonical' hgen hpoison howner howner' hexec hexec'
  obtain ⟨t, ht, -, htpoison, htgen, -, hstatus⟩ := exec_answers_owner i hcanonical.1 howner hexec
  obtain ⟨t', ht', -, htpoison', htgen', -, hstatus'⟩ := exec_answers_owner i hcanonical'.1 howner' hexec'
  rw [← hgen, ← hpoison] at htgen' hstatus'
  exact ⟨t, t', _, ht, ht', htgen.trans htgen'.symm, htpoison.trans (hpoison.trans htpoison'.symm), hstatus, hstatus'⟩

end Sys2Proof.Machine

/-! ### Exceptions: the abort event (60_exceptions.md R142) -/

namespace Sys2Proof.Machine

/-- R142: a command in execution can be cut short on a platform with `ALLOW_ABORT`. -/
theorem makeMove_abort {s : State} (hrest : s.phase.atRest = false) (hallow : s.cfg.allowAbort = true) :
    makeMove s .abort = .next s.abortEvent := by
  simp [makeMove, State.abortMove, hrest, hallow]

theorem makeMove_abort_atRest {s : State} (hrest : s.phase.atRest = true) :
    makeMove s .abort = .refused .nothingExecuting := by
  simp [makeMove, State.abortMove, hrest]

theorem makeMove_abort_excluded {s : State} (hrest : s.phase.atRest = false) (hallow : s.cfg.allowAbort = false) :
    makeMove s .abort = .refused .abortExcluded := by
  simp [makeMove, State.abortMove, hrest, hallow]

/-- Settles O26: the two guards of the abort event. -/
theorem abortIsExcluded : Obligations.AbortIsExcluded := fun s rest hin =>
  ⟨fun hrest => (step_cons hin).trans (makeMove_abort_atRest (s := s.withInputs rest) hrest),
    fun hrest hallow => (step_cons hin).trans (makeMove_abort_excluded (s := s.withInputs rest) hrest hallow)⟩

theorem State.status_abortEvent_other (s : State) {r : Nat} (h : s.owner ≠ some r) :
    s.abortEvent.status r = s.status r :=
  (status_congr (abortEvent_requesters s) r).trans (status_dropOwner_other s h)

theorem State.PortBusy.status_abortEvent {s : State} {o : Nat} {rq : Request} (h : s.PortBusy o rq) :
    s.abortEvent.status o = .lost rq := by
  rw [status_congr (abortEvent_requesters s), status_dropOwner_owner h.requesters.1 h.owner, h.executing]
  rfl

/-- Settles O25: the command in execution is in a phase of its own, so that the abort event falls inside it. -/
theorem abortPoisonsTheEngine : Obligations.AbortPoisonsTheEngine := by
  intro s rest o rq hinv hallow howner hexec hin
  obtain ⟨hbusy, hphase⟩ := (hinv.withInputs rest).busy howner hexec
  refine ⟨_, (step_cons hin).trans (makeMove_abort hphase.not_atRest hallow), State.abortEvent_poison _,
    State.abortEvent_phase _, State.abortEvent_owner _, hbusy.status_abortEvent, fun r hne => ?_,
    State.abortEvent_received _, State.abortEvent_inputs _, State.abortEvent_cfg _⟩
  exact State.status_abortEvent_other (s.withInputs rest) (by rw [hbusy.owner]; simpa using Ne.symm hne)

/-- Settles O27: a step holds the state or makes a move, and none but reset takes the status away. -/
theorem abortedRequesterIsNeverAnswered : Obligations.AbortedRequesterIsNeverAnswered := by
  intro s t r rq hinv hlost hstep hreset
  rcases step_cases hstep with ⟨_, rfl, _⟩ | ⟨m, rest, hinputs, hmove⟩
  · exact hlost
  · exact makeMove_keeps_lost (hinv.withInputs rest)
      (fun e => hreset ((head_iff_move hinputs (by simp)).2 e)) hmove hlost

/-! ### Exceptions: no move on a poisoned engine reads the generator state (60_exceptions.md R143) -/

/-- But for reset, a move on a poisoned engine leaves the generator state, whatever it is, and does not look at it. -/
theorem makeMove_withGen_poisoned {s t : State} {m : Move} (g : Gen) (hpoison : s.poison = true)
    (hdead : s.phase = .dead) (hreset : m ≠ .reset) (hmove : makeMove s m = .next t) :
    makeMove (s.withGen g) m = .next (t.withGen g) := by
  have hrest : s.phase.atRest = true := by rw [hdead]; rfl
  rcases makeMove_cases hmove with
    ⟨r, rq, rfl, hr, hidle, rfl⟩ | ⟨r, rq, rfl, hpending, _, hexec⟩ | ⟨r, rq, rfl, hpending, _, rfl⟩ |
    ⟨_, hbusy, _⟩ | ⟨r, rq, resp, rfl, hanswered, rfl⟩ | ⟨rfl, _⟩ | ⟨_, hbusy, _⟩
  · exact State.submit_of_idle (s := s.withGen g) rq ⟨hr, hidle⟩
  · rw [exec_poisoned _ (s := s.grant r rq) hpoison] at hexec
    obtain rfl := Host.Outcome.next.inj hexec
    rw [makeMove_accept (s := s.withGen g) hpending hrest, exec_poisoned _ (s := (s.withGen g).grant r rq) hpoison,
      ← State.takeFatal_withGen]
    rfl
  · have hgranted := State.grantable_pending (s := s.withGen g) hpending hrest
    simp only [makeMove, hgranted]
    rw [State.startPhases_poisoned (s := s.withGen g) r rq hpoison, State.startPhases_poisoned r rq hpoison,
      ← State.takeFatal_withGen]
    rfl
  · rw [hrest] at hbusy; cases hbusy
  · exact makeMove_consume (s := s.withGen g) hanswered
  · exact absurd rfl hreset
  · rw [hrest] at hbusy; cases hbusy

/-- R154: the engine at rest holds its state while no agent moves. -/
theorem step_atRest {s : State} (hin : s.inputs = []) (hrest : s.phase.atRest = true) : step s = .next s := by
  simp only [step, hin, hrest, if_true]

/-- Settles O28: reset installs its own generator state, and any other step leaves the one it finds. -/
theorem poisonedContentsAreNeverRead : Obligations.PoisonedContentsAreNeverRead := by
  intro s t g hpoison hdead hstep
  cases hin : s.inputs with
  | nil =>
    have hrest : s.phase.atRest = true := by rw [hdead]; rfl
    obtain rfl := Host.Outcome.next.inj ((step_atRest hin hrest).symm.trans hstep)
    exact ⟨g, step_atRest (s := s.withGen g) hin hrest, nofun⟩
  | cons m rest =>
    have hmove := (step_cons hin).symm.trans hstep
    have hstep' := step_cons (s := s.withGen g) hin
    by_cases hreset : m = .reset
    · subst hreset
      obtain rfl := Host.Outcome.next.inj hmove
      exact ⟨(s.withInputs rest).resetEvent.gen, hstep', fun _ => rfl⟩
    · exact ⟨g, hstep'.trans (makeMove_withGen_poisoned (s := s.withInputs rest) g hpoison hdead hreset hmove),
        fun e => absurd (Option.some.inj e) hreset⟩

end Sys2Proof.Machine

/-! ### Exceptions: no FATAL response without an abort (60_exceptions.md R142, 70_reset_and_hazards.md R178) -/

namespace Sys2Proof.Machine

/-- `NoFatal` reads nothing but its own fields. -/
theorem State.NoFatal.congr {s t : State} (h : s.NoFatal) (hpoison : t.poison = s.poison)
    (hrequesters : t.requesters = s.requesters) (hreceived : t.received = s.received) : t.NoFatal where
  healthy := hpoison.trans h.healthy
  answered r rq := by rw [status_congr hrequesters]; exact h.answered r rq
  received := by rw [hreceived]; exact h.received

/-- Any status but FATAL may be written. -/
theorem State.NoFatal.setStatus {s : State} (h : s.NoFatal) {n : Nat} (hcanonical : Canonical idleStatus n s.requesters)
    (r : Nat) {st : ReqStatus} (hst : ∀ rq, st ≠ .answered rq .fatal) : (s.setStatus r st).NoFatal where
  healthy := h.healthy
  answered r' rq := by
    rw [status_setStatus hcanonical]
    split
    · exact hst rq
    · exact h.answered r' rq
  received := h.received

theorem ReqStatus.answer_ne_fatal {st : ReqStatus} {resp : Response} (hst : ∀ rq, st ≠ .answered rq .fatal)
    (hresp : resp ≠ .fatal) (rq : Request) : st.answer resp ≠ .answered rq .fatal := by
  cases st with
  | executing rq' => simpa [answer] using fun _ => hresp
  | _ => exact hst rq

/-- A command that ends with another response than FATAL. -/
theorem State.NoFatal.finishWith {s : State} (h : s.NoFatal) {n : Nat}
    (hcanonical : Canonical idleStatus n s.requesters) {resp : Response} (hresp : resp ≠ .fatal) :
    (s.finishWith resp).NoFatal := by
  have hrespond : (s.respond resp).NoFatal := by
    unfold State.respond
    split
    · exact h
    · next o _ =>
      exact (h.setStatus hcanonical o (ReqStatus.answer_ne_fatal (h.answered o) hresp)).congr rfl rfl rfl
  exact hrespond.congr (by simp) (by simp) (by simp)

theorem State.NoFatal.grant {s : State} (h : s.NoFatal) {n : Nat} (hcanonical : Canonical idleStatus n s.requesters)
    (r : Nat) (rq : Request) : (s.grant r rq).NoFatal :=
  (h.setStatus hcanonical r (st := .executing rq) (by simp)).congr rfl rfl rfl

theorem effectOf_ne_fatal (i : Instr) (g : Gen) : (effectOf i g).2 ≠ .fatal := by
  cases i <;> simp [effectOf]

theorem tick_noFatal {s : State} (h : s.NoFatal) {n : Nat} (hcanonical : Canonical idleStatus n s.requesters) :
    s.tick.NoFatal := by
  rcases tick_port s with hport | ⟨_, htick⟩ | ⟨_, htick⟩
  · exact h.congr hport.poison hport.requesters hport.received
  · rw [htick]; exact h.finishWith hcanonical (by simp)
  · rw [htick]; exact h.finishWith hcanonical (by simp)

theorem resetEvent_noFatal (s : State) : s.resetEvent.NoFatal where
  healthy := rfl
  answered r rq := by rw [status_nil rfl]; simp
  received := nofun

/-- A move that is no abort answers nobody FATAL, on a healthy engine. -/
theorem makeMove_noFatal {s t : State} {m : Move} (h : s.NoFatal) {n : Nat}
    (hcanonical : Canonical idleStatus n s.requesters) (hallow : s.cfg.allowAbort = false)
    (hmove : makeMove s m = .next t) : t.NoFatal := by
  rcases makeMove_cases hmove with
    ⟨r, rq, _, _, _, rfl⟩ | ⟨r, rq, _, hpending, _, hexec⟩ | ⟨r, rq, _, _, _, rfl⟩ | ⟨_, _, rfl⟩ |
    ⟨r, rq, resp, _, hanswered, rfl⟩ | ⟨_, rfl⟩ | ⟨_, _, habort, _⟩
  · exact h.setStatus hcanonical r (by simp)
  · have hr : r < n := State.lt_of_status hcanonical (by simp [hpending])
    rw [exec_healthy _ (s := s.grant r rq) h.healthy] at hexec
    obtain rfl := Host.Outcome.next.inj hexec
    exact ((h.grant hcanonical r rq).congr (t := (s.grant r rq).withGen _) rfl rfl rfl).finishWith
      (State.setStatus_canonical hcanonical (.executing rq) hr) (effectOf_ne_fatal _ _)
  · rw [State.startPhases_healthy r rq h.healthy]
    exact (h.grant hcanonical r rq).congr rfl rfl rfl
  · exact tick_noFatal h hcanonical
  · have hidle := h.setStatus hcanonical r (st := .idle) (by simp)
    refine ⟨hidle.healthy, hidle.answered, fun p hp => ?_⟩
    rcases List.mem_append.1 hp with hp | hp
    · exact h.received p hp
    · rw [List.mem_singleton.1 hp]
      rintro rfl
      exact h.answered r rq hanswered
  · exact resetEvent_noFatal s
  · rw [hallow] at habort; cases habort

/-- Settles O39: a step holds the state or makes a move, and the one move that could poison the engine is excluded. -/
theorem noFatalResponseWithoutAbort : Obligations.NoFatalResponseWithoutAbort := by
  intro s t hinv hallow h hstep
  rcases step_cases hstep with ⟨_, rfl, _⟩ | ⟨m, rest, _, hmove⟩
  · exact h
  · exact makeMove_noFatal (s := s.withInputs rest) (h.congr rfl rfl rfl) hinv.requesters hallow hmove

end Sys2Proof.Machine

/-! ### Exceptions: the arbiter and FAIR (60_exceptions.md R152, R153) -/

namespace Sys2Proof.Machine

/-- A command accepted and executed or refused whole touches no other requester. -/
theorem status_exec_grant_other {i : Instr} {s t : State} {r r' : Nat} {rq : Request}
    (h : exec i (s.grant r rq) = .next t) (hne : r' ≠ r) : t.status r' = s.status r' := by
  obtain ⟨-, -, -, -, -, -, hother, -⟩ := frameOfDrawAndSeed _ _ _ h
  rw [hother r' (by simpa using Ne.symm hne), State.status_grant_other s rq hne]

/-- R50, R152: whichever pending request is accepted, it is answered, and the engine is at rest again. -/
theorem accept_answers {s : State} (hinv : s.Inv) (hrest : s.phase.atRest = true) {r : Nat} {rq : Request}
    (hpending : s.status r = .pending rq) :
    ∃ t resp, makeMove s (.accept r) = .next t ∧ t.status r = .answered rq resp ∧ t.phase.atRest = true ∧
      ∀ r', r' ≠ r → t.status r' = s.status r' := by
  have hbusy := (hinv.portFree hrest).grant hpending
  obtain ⟨t, ht, -, -, -, hphase, hstatus⟩ :=
    exec_answers_owner (decode rq.word) hbusy.requesters.1 hbusy.owner hbusy.executing
  refine ⟨t, _, (makeMove_accept hpending hrest).trans ht, hstatus, ?_, fun r' => status_exec_grant_other ht⟩
  rw [hphase]
  split
  · exact hrest
  · rfl

/-- Settles O33: the step is the acceptance, and a move leaves the moves behind it to come. -/
theorem anyPendingCommandCanBeAccepted : Obligations.AnyPendingCommandCanBeAccepted := by
  intro s r rq rest hinv hrest hpending hin
  obtain ⟨t, resp, ht, hanswered, hrest', hother⟩ := accept_answers (hinv.withInputs rest) hrest hpending
  exact ⟨t, resp, (step_cons hin).trans ht, hanswered, hrest', hother, makeMove_inputs ht⟩

theorem State.respond_keeps_pending {s : State} {r : Nat} {rq : Request} (resp : Response)
    (h : s.status r = .pending rq) : (s.respond resp).status r = .pending rq := by
  by_cases howner : s.owner = some r
  · simp only [respond, howner, h, ReqStatus.answer]
    exact status_setStatus_ne_idle s r (by simp)
  · rw [status_respond_other s resp howner, h]

theorem State.dropOwner_keeps_pending {s : State} {r : Nat} {rq : Request} (h : s.status r = .pending rq) :
    s.dropOwner.status r = .pending rq := by
  by_cases howner : s.owner = some r
  · simp only [dropOwner, howner, h, ReqStatus.lose]
    exact status_setStatus_ne_idle s r (by simp)
  · rw [status_dropOwner_other s howner, h]

theorem State.tick_keeps_pending {s : State} {r : Nat} {rq : Request} (h : s.status r = .pending rq) :
    s.tick.status r = .pending rq := by
  rcases tick_port s with hport | ⟨_, htick⟩ | ⟨_, htick⟩
  · rw [status_congr hport.requesters, h]
  · rw [htick]; exact respond_keeps_pending _ h
  · rw [htick]; exact respond_keeps_pending _ h

/-- A pending command stays pending until it is accepted or a reset discards it. -/
theorem makeMove_keeps_pending {s t : State} {m : Move} {r : Nat} {rq : Request} (hreset : m ≠ .reset)
    (haccept : m ≠ .accept r) (hstart : m ≠ .start r) (hmove : makeMove s m = .next t)
    (h : s.status r = .pending rq) : t.status r = .pending rq := by
  have hne : ∀ {r'}, s.status r' ≠ .pending rq → r ≠ r' := fun h' e => h' (by rw [← e]; exact h)
  rcases makeMove_cases hmove with
    ⟨r', rq', _, _, hidle, rfl⟩ | ⟨r', rq', rfl, _, _, hexec⟩ | ⟨r', rq', rfl, _, _, rfl⟩ | ⟨_, _, rfl⟩ |
    ⟨r', rq', resp, _, hanswered, rfl⟩ | ⟨rfl, _⟩ | ⟨_, _, _, rfl⟩
  · exact (State.status_setStatus_other s _ (hne (by simp [hidle]))).trans h
  · exact (status_exec_grant_other hexec fun e => haccept (by rw [e])).trans h
  · exact (State.status_startPhases_other s rq' fun e => hstart (by rw [e])).trans h
  · exact State.tick_keeps_pending h
  · exact (State.status_setStatus_other s .idle (hne (by simp [hanswered]))).trans h
  · exact absurd rfl hreset
  · exact (State.status_congr (State.abortEvent_requesters s) r).trans (State.dropOwner_keeps_pending h)

/-- In an endless execution without reset a command ceases to be pending only by its acceptance. -/
theorem IsExecution.accepted {μ : Nat → Option Move} {τ : Nat → State} (h : IsExecution μ τ) {n r : Nat}
    (hpending : (τ n).isPending r) (hnext : ¬ (τ (n + 1)).isPending r) (hreset : μ n ≠ some .reset) :
    μ n = some (.accept r) ∨ μ n = some (.start r) := by
  obtain ⟨rq, hrq⟩ := hpending
  rcases step_cases (h n) with ⟨-, hsame, -⟩ | ⟨m, rest, hinputs, hmove⟩
  · exact absurd ⟨rq, by rw [hsame]; exact hrq⟩ hnext
  · have hhead : ∀ m', m' ≠ .tick → (μ n = some m' ↔ m = m') := fun m' hne => by
      rw [← head_iff_move hinputs hne, State.withInputs_inputs, Option.head?_toList]
    rw [hhead _ (by simp), hhead _ (by simp)]
    rw [Ne, hhead _ (by simp)] at hreset
    by_contra hno
    rw [not_or] at hno
    exact hnext ⟨rq, makeMove_keeps_pending hreset hno.1 hno.2 hmove hrq⟩

/-- Settles O40: by FAIR there is a last point at which the command is pending, and the move made there accepts it. -/
theorem fairArbiterAcceptsPendingCommands : Obligations.FairArbiterAcceptsPendingCommands := by
  intro μ τ hexecution hfair n r hpending hnoReset
  obtain ⟨m, hm, hends⟩ := hfair r n
  obtain ⟨k, hk, hk'⟩ := Nat.exists_not_and_succ_of_not_zero_of_exists
    (p := fun k => ¬ (τ (n + k)).isPending r) (not_not_intro hpending) ⟨m - n, by rwa [Nat.add_sub_cancel' hm]⟩
  exact ⟨n + k, by omega, not_not.1 hk, hexecution.accepted (not_not.1 hk) hk' (hnoReset _ (by omega))⟩

/-! ### Exceptions: an execution that is not fair (60_exceptions.md R153) -/

/-- The move that serves requester 0 next: its DRAWDs are submitted, accepted and consumed one after another. -/
def servingMove : ReqStatus → Move
  | .pending _ => .accept 0
  | .answered _ _ => .consume 0
  | _ => .submit 0 .drawd

/-- Requester 1 waits at an engine at rest, at which requester 0 can be served for ever. -/
structure State.Starving (s : State) : Prop where
  inv : s.Inv
  atRest : s.phase.atRest = true
  waiting : s.isPending 1
  notLost : ∀ rq, s.status 0 ≠ .lost rq

theorem servingMove_leaves_others (st : ReqStatus) :
    servingMove st ≠ .reset ∧ servingMove st ≠ .accept 1 ∧ servingMove st ≠ .start 1 := by
  cases st <;> simp [servingMove]

/-- R177 (b): a response can be consumed, and its requester may submit again. -/
theorem consume_frees {s : State} (hs : s.requesters.Pairwise (fun a b => a.1 < b.1)) {r : Nat} {rq : Request}
    {resp : Response} (h : s.status r = .answered rq resp) :
    ∃ t, makeMove s (.consume r) = .next t ∧ t.phase = s.phase ∧ t.status r = .idle :=
  ⟨_, makeMove_consume h, rfl, State.status_setStatus_same hs r .idle⟩

/-- The move that serves requester 0 can be made, leaves the engine at rest, and accepts a command of requester 0 or
is one fewer before that. -/
theorem State.Starving.makeMove_serving {s : State} (h : s.Starving) :
    ∃ t, makeMove s (servingMove (s.status 0)) = .next t ∧ t.phase.atRest = true ∧ (∀ rq, t.status 0 ≠ .lost rq) ∧
      (s.isPending 0 ∨ (t.status 0).movesLeft < (s.status 0).movesLeft) := by
  have hstatus := status_setStatus h.inv.requesters 0
  cases hst : s.status 0 with
  | idle =>
    obtain ⟨rq, hwaiting⟩ := h.waiting
    have hreq : 1 < s.cfg.nReq := lt_of_status h.inv.requesters (by simp [hwaiting])
    exact ⟨_, submit_of_idle .drawd ⟨by omega, hst⟩, h.atRest, by simp [hstatus], by
      simp [hstatus, ReqStatus.movesLeft]⟩
  | pending rq =>
    obtain ⟨t, resp, ht, hanswered, hrest, -⟩ := accept_answers h.inv h.atRest hst
    exact ⟨t, ht, hrest, by simp [hanswered], .inl ⟨rq, hst⟩⟩
  | executing rq => exact absurd hst ((h.inv.portFree h.atRest).none_executing 0 rq)
  | answered rq resp =>
    obtain ⟨t, ht, hphase, hidle⟩ := consume_frees h.inv.requesters.1 hst
    exact ⟨t, ht, by rw [hphase]; exact h.atRest, by simp [hidle], .inr (by simp [hidle, ReqStatus.movesLeft])⟩
  | lost rq => exact absurd hst (h.notLost rq)

theorem State.Starving.withInputs {s : State} (h : s.Starving) (moves : List Move) : (s.withInputs moves).Starving :=
  ⟨h.inv.withInputs moves, h.atRest, h.waiting, h.notLost⟩

/-- Serving requester 0 leaves requester 1 waiting. -/
theorem State.Starving.step_serving {s : State} (h : s.Starving) :
    ∃ t, step (s.withInputs [servingMove (s.status 0)]) = .next t ∧ t.Starving ∧
      (s.isPending 0 ∨ (t.status 0).movesLeft < (s.status 0).movesLeft) := by
  obtain ⟨t, ht, hrest, hnotLost, hserved⟩ := (h.withInputs []).makeMove_serving
  obtain ⟨hreset, haccept, hstart⟩ := servingMove_leaves_others (s.status 0)
  obtain ⟨rq, hwaiting⟩ := h.waiting
  exact ⟨t, (step_cons rfl).trans ht, ⟨makeMove_inv (h.inv.withInputs []) ht, hrest,
    ⟨rq, makeMove_keeps_pending hreset haccept hstart ht hwaiting⟩, hnotLost⟩, hserved⟩

/-- The state after the next move that serves requester 0. -/
def State.afterServing (s : State) : State :=
  match step (s.withInputs [servingMove (s.status 0)]) with
  | .next t => t
  | _ => s

/-- Requester 1 has a DRAW pending, and requester 0 is served for ever. -/
def starvingRun : Nat → State
  | 0 => withOne 1 (.pending (.command 0#33)) []
  | n + 1 => (starvingRun n).afterServing

theorem State.Starving.step_afterServing {s : State} (h : s.Starving) :
    step (s.withInputs [servingMove (s.status 0)]) = .next s.afterServing ∧ s.afterServing.Starving ∧
      (s.isPending 0 ∨ (s.afterServing.status 0).movesLeft < (s.status 0).movesLeft) := by
  obtain ⟨t, ht, hstarving, hserved⟩ := h.step_serving
  obtain rfl : s.afterServing = t := by simp only [afterServing, ht]
  exact ⟨ht, hstarving, hserved⟩

theorem starvingRun_starving (n : Nat) : (starvingRun n).Starving := by
  induction n with
  | zero =>
    exact ⟨inv_withOne _ (by decide) (by simp) (by simp) (by simp), rfl, ⟨_, rfl⟩, fun _ => nofun⟩
  | succ n ih =>
    obtain ⟨-, hstarving, -⟩ := ih.step_afterServing
    exact hstarving

/-- Again and again a command of requester 0 is pending; by induction on the moves before that. -/
theorem starvingRun_serves (n : Nat) : ∃ m, n ≤ m ∧ (starvingRun m).isPending 0 := by
  induction hk : ((starvingRun n).status 0).movesLeft using Nat.strong_induction_on generalizing n with
  | _ k ih =>
    obtain ⟨-, -, hpending | hlt⟩ := (starvingRun_starving n).step_afterServing
    · exact ⟨n, le_rfl, hpending⟩
    · obtain ⟨m, hm, hpending⟩ := ih _ (hk ▸ hlt) (n + 1) rfl
      exact ⟨m, by omega, hpending⟩

/-- Settles O54: the schedule that always serves requester 0 is an execution. -/
theorem fairIsNotEnforced : Obligations.FairIsNotEnforced := by
  have hwaiting : ∀ n, (starvingRun n).isPending 1 := fun n => (starvingRun_starving n).waiting
  refine ⟨fun n => some (servingMove ((starvingRun n).status 0)), starvingRun,
    fun n => (starvingRun_starving n).step_afterServing.1, (starvingRun_starving 0).inv, fun hfair => ?_, hwaiting,
    fun n => ?_⟩
  · obtain ⟨m, -, hends⟩ := hfair 1 0
    exact hends (hwaiting m)
  · obtain ⟨m, hm, rq, hrq⟩ := starvingRun_serves n
    exact ⟨m, hm, congrArg (fun st => some (servingMove st)) hrq⟩

end Sys2Proof.Machine

/-! ### Reset and hazards: the paths to the generator state (70_reset_and_hazards.md R177) -/

namespace Sys2Proof.Machine

/-- No phase has run when a command enters its first one, and a refusal writes the port alone (R143). -/
@[simp] theorem State.gen_startPhases (s : State) (r : Nat) (rq : Request) : (s.startPhases r rq).gen = s.gen := by
  unfold State.startPhases
  split
  · exact State.gen_takeFatal _
  · rfl

/-- R177: the moves that leave the generator state alone, and those that may not. -/
theorem makeMove_gen {s t : State} {m : Move} (h : makeMove s m = .next t) :
    t.gen = s.gen ∨ (∃ r, m = .accept r) ∨ (m = .tick ∧ s.phase.atRest = false) ∨ m = .reset ∨ m = .abort := by
  rcases makeMove_cases h with
    ⟨r, rq, _, _, _, rfl⟩ | ⟨r, _, haccept, _⟩ | ⟨r, rq, _, _, _, rfl⟩ | ⟨htick, hbusy, _⟩ |
    ⟨r, _, _, _, _, rfl⟩ | ⟨hreset, _⟩ | ⟨habort, _⟩
  · exact .inl (State.gen_setStatus s r _)
  · exact .inr (.inl ⟨r, haccept⟩)
  · exact .inl (State.gen_startPhases s r rq)
  · exact .inr (.inr (.inl ⟨htick, hbusy⟩))
  · exact .inl (State.gen_setStatus s r .idle)
  · exact .inr (.inr (.inr (.inl hreset)))
  · exact .inr (.inr (.inr (.inr habort)))

/-- Settles O35: a step that changes the generator state makes a move, and of the moves only those named may; a
phase was the agents' move or one of the engine itself. -/
theorem onlyCommandsAndEventsChangeTheGenerator : Obligations.OnlyCommandsAndEventsChangeTheGenerator := by
  intro s t hstep hchanged
  rcases step_cases hstep with ⟨_, rfl, _⟩ | ⟨m, rest, hinputs, hmove⟩
  · exact absurd rfl hchanged
  · rcases makeMove_gen hmove with hsame | ⟨r, haccept⟩ | ⟨rfl, hbusy⟩ | hreset | habort
    · exact absurd hsame hchanged
    · exact .inl ⟨r, (head_iff_move hinputs (by simp)).2 haccept⟩
    · rcases hinputs with hin | ⟨hin, _⟩
      · exact .inr (.inl (by rw [hin]; rfl))
      · exact .inr (.inr (.inl ⟨hin, hbusy⟩))
    · exact .inr (.inr (.inr (.inl ((head_iff_move hinputs (by simp)).2 hreset))))
    · exact .inr (.inr (.inr (.inr ((head_iff_move hinputs (by simp)).2 habort))))

end Sys2Proof.Machine

/-! ### Reset and hazards: the reset event (70_reset_and_hazards.md R170) -/

namespace Sys2Proof.Machine

/-- The reset event has no guard: it can come at any time. -/
theorem step_reset {s : State} {rest : List Move} (h : s.inputs = .reset :: rest) :
    step s = .next (s.withInputs rest).resetEvent := step_cons h

/-- R170: reset leaves nothing outstanding. -/
theorem State.status_resetEvent (s : State) (r : Nat) : s.resetEvent.status r = .idle :=
  status_nil (resetEvent_requesters s) r

/-- Settles O30: the reset contents are `initialize(0)`, which is what SEED 0 leaves too. -/
theorem resetEventInstallsTheResetState : Obligations.ResetEventInstallsTheResetState := by
  intro s rest hin
  have hgen := State.gen_resetEvent (s.withInputs rest)
  refine ⟨_, step_reset hin, hgen, hgen.trans reset_gen.symm, State.resetEvent_poison _, State.resetEvent_phase _,
    State.resetEvent_owner _, State.status_resetEvent _, State.resetEvent_inputs _, State.resetEvent_cfg _,
    fun u v hhealthy hexec => ?_⟩
  obtain ⟨hseeded, hpoison, hphase⟩ := seed_leaves_seeded hhealthy hexec
  exact ⟨hgen.trans hseeded.symm, hpoison.symm, hphase.symm⟩

end Sys2Proof.Machine
